-- ==== Sys2Proof/Word.lean ====
section
/-! DEFINITION. The widths of the values that cross the command port or stand in a register: spec/00_scope.md R6. -/

namespace Sys2Proof

/-- A command word, and the data word of a response: `CMDW` = `MAXW` = 32 bits (00_scope.md R6). -/
abbrev Word := BitVec 32

/-- A character operand: `CHW` = 8 bits (00_scope.md R6). -/
abbrev Byte := BitVec 8

/-- An armor value: `SYMW` = 6 bits (00_scope.md R6, 30_encoding.md R51). -/
abbrev Sextet := BitVec 6

/-- The bit-length counter and the offset operand: `LENW` = 16 bits (00_scope.md R6, 10_state.md R11). -/
abbrev BitCount := BitVec 16

/-- The width operand of a read: bits 27 to 22 of the command word (30_encoding.md R42, R44). -/
abbrev FieldWidth := BitVec 6

end Sys2Proof
end

