-- ==== Sys2Proof/Syntax.lean ====
section
/-! DEFINITION. The seven commands (spec/30_encoding.md R41) and the lines of the assembler (R49). -/

namespace Sys2Proof

/-- A command of the block, one constructor per row of spec/opcode_table.json. Every operand has exactly the width
of its field in the command word (30_encoding.md R42, R44), so a command has no ill-formed value. -/
inductive Instr where
  /-- 40_accumulator_control.md R60. -/
  | nop
  /-- 40_accumulator_control.md R61. -/
  | clr
  /-- 41_armor_append.md R70. -/
  | push (ch : Byte)
  /-- 41_armor_append.md R73. -/
  | pad (ch : Byte)
  /-- 42_bitfield_read.md R80. -/
  | rdu (off : BitCount) (n : FieldWidth)
  /-- 42_bitfield_read.md R81. -/
  | rds (off : BitCount) (n : FieldWidth)
  /-- 40_accumulator_control.md R62. -/
  | stat
deriving DecidableEq, Repr

/-- One line of assembler text (30_encoding.md R49): the seven commands and the pseudo-commands. Operands are the
numbers that stand in the text; `AsmLine.wf` says which of them R49 admits. -/
inductive AsmLine where
  | nop
  | clr
  | push (c : Nat)
  | pad (c : Nat)
  | rdu (off n : Nat)
  | rds (off n : Nat)
  | stat
  /-- `PUSHS "s"`. -/
  | pushs (s : List Nat)
  /-- `FIELD "s", c`. -/
  | field (s : List Nat) (c : Nat)
  /-- `FIELD "s"`: an empty pad field. -/
  | fieldEmptyPad (s : List Nat)
  /-- `LEN`. -/
  | len
  /-- `RD6 off`. -/
  | rd6 (off : Nat)
deriving DecidableEq, Repr

end Sys2Proof
end

