-- ==== Sys2Proof/WellFormed.lean ====
section
/-! DEFINITION. What is well formed: a command word, by the match and mask of its row (spec/30_encoding.md R42, R45),
and an assembler line, by the ranges of its operands (R49). A command (`Instr`) needs no check: its operands have the
widths of their fields. -/

namespace Sys2Proof

/-- A row of the encoding table: a word is the row's command when `word AND mask = value` (30_encoding.md R42). -/
structure OpcodeRow where
  value : Word
  mask : Word
deriving DecidableEq, Repr

/-- The seven rows of 30_encoding.md R42, in the order of its list: NOP, CLR, PUSH, PAD, RDU, RDS, STAT. -/
def opcodeRows : List OpcodeRow :=
  [⟨0x00000000, 0xFFFFFFFF⟩, ⟨0x10000000, 0xFFFFFFFF⟩, ⟨0x20000000, 0xFFFFFF00⟩, ⟨0x30000000, 0xFFFFFF00⟩,
   ⟨0x40000000, 0xF03F0000⟩, ⟨0x50000000, 0xF03F0000⟩, ⟨0x60000000, 0xFFFFFFFF⟩]

/-- The word `w` is one of the seven commands: it matches a row. Every other word is illegal (30_encoding.md R45). -/
def legalWord (w : Word) : Bool :=
  opcodeRows.any fun r => (w &&& r.mask) == r.value

/-- A character operand is a number 0 to 255 (30_encoding.md R49). -/
def charCodeWf (c : Nat) : Bool := decide (c < 256)

/-- An offset operand is a number 0 to 65535 (30_encoding.md R49). -/
def offsetWf (off : Nat) : Bool := decide (off < 65536)

/-- A width operand is a number 0 to 63; 0 and 33 to 63 assemble, and fault RNG when run (30_encoding.md R49). -/
def widthWf (n : Nat) : Bool := decide (n < 64)

/-- The operands of an assembler line are in the ranges of 30_encoding.md R49. -/
def AsmLine.wf : AsmLine → Bool
  | .nop | .clr | .stat | .len => true
  | .push c | .pad c => charCodeWf c
  | .rdu off n | .rds off n => offsetWf off && widthWf n
  | .pushs s | .fieldEmptyPad s => s.all charCodeWf
  | .field s c => s.all charCodeWf && charCodeWf c
  | .rd6 off => offsetWf off

end Sys2Proof
end

