-- ==== Sys2Proof/Decode.lean ====
section
/-! DEFINITION. Decoding and encoding of command words: spec/30_encoding.md R42, R44, R45, R49, R55. -/

namespace Sys2Proof

/-- Why a word is illegal: the two grounds of 30_encoding.md R45. -/
inductive IllegalWord where
  /-- `op` is 0x7 to 0xF. -/
  | reservedOpcode
  /-- A bit that the format marks "reserved, must be 0" is 1. -/
  | reservedBits
deriving DecidableEq, Repr

/-- The slice of `width` bits of a word whose least significant bit is bit `lo` (00_scope.md R7). -/
def slice (w : Word) (lo width : Nat) : BitVec width := w.extractLsb' lo width

/-- `op = bits[31:28]` (30_encoding.md R42). -/
def opField (w : Word) : BitVec 4 := slice w 28 4

/-- `ch = bits[7:0]` (30_encoding.md R44). -/
def chField (w : Word) : Byte := slice w 0 8

/-- `off = bits[15:0]` (30_encoding.md R44). -/
def offField (w : Word) : BitCount := slice w 0 16

/-- `n = bits[27:22]` (30_encoding.md R44). -/
def nField (w : Word) : FieldWidth := slice w 22 6

/-- The command of a word whose reserved bits are `reserved`: illegal unless they are all 0 (30_encoding.md R45). -/
def requireZero {k : Nat} (reserved : BitVec k) (i : Instr) : Except IllegalWord Instr :=
  if reserved = 0 then .ok i else .error .reservedBits

/-- The decoding algorithm of 30_encoding.md R55, total on all 32-bit words. -/
def decode (w : Word) : Except IllegalWord Instr :=
  match (opField w).toNat with
  | 0 => requireZero (slice w 0 28) .nop
  | 1 => requireZero (slice w 0 28) .clr
  | 2 => requireZero (slice w 8 20) (.push (chField w))
  | 3 => requireZero (slice w 8 20) (.pad (chField w))
  | 4 => requireZero (slice w 16 6) (.rdu (offField w) (nField w))
  | 5 => requireZero (slice w 16 6) (.rds (offField w) (nField w))
  | 6 => requireZero (slice w 0 28) .stat
  | _ => .error .reservedOpcode

/-- The word of a command, by the formula of its row in 30_encoding.md R49. No sum carries out of 32 bits. -/
def encode : Instr → Word
  | .nop => 0x00000000
  | .clr => 0x10000000
  | .push ch => BitVec.ofNat 32 (0x20000000 + ch.toNat)
  | .pad ch => BitVec.ofNat 32 (0x30000000 + ch.toNat)
  | .rdu off n => BitVec.ofNat 32 (0x40000000 + n.toNat * 2 ^ 22 + off.toNat)
  | .rds off n => BitVec.ofNat 32 (0x50000000 + n.toNat * 2 ^ 22 + off.toNat)
  | .stat => 0x60000000

/-- The word whose low `nbits` bits are those of `w` and whose other bits are 0. A command is one word and is not held
in a memory, so it has no byte order (20_memory.md R21, R30). -/
def tableWord (nbits w : Nat) : Word := BitVec.ofNat 32 (w % 2 ^ nbits)

/-- The command the decoder reads from a word of the opcode table, none where it refuses. -/
def decodeTableWord (nbits w : Nat) : Option Instr := (decode (tableWord nbits w)).toOption

end Sys2Proof
end

