-- ==== Sys2Proof/Config.lean ====
section
/-! DEFINITION. The build parameters of a block: spec/00_scope.md R6, spec/92_eei_decisions.md D3. -/

namespace Sys2Proof

/-- What is fixed when the block is built: the capacity `CAP_BITS`.
It is given as the index of the last byte of `buf`, below 4096, so that every value of this type is a capacity
00_scope.md R6 allows (a multiple of 8 from 8 to 32768) and every capacity R6 allows is a value of it. -/
structure Config where
  /-- `CAP_BYTES - 1`. -/
  lastByte : Fin 4096
deriving DecidableEq, Repr

/-- `CAP_BYTES`: the size of the byte array (00_scope.md R6). -/
def Config.capBytes (c : Config) : Nat := c.lastByte.val + 1

/-- `CAP_BITS`: the capacity of `buf` in bits (00_scope.md R6). -/
def Config.capBits (c : Config) : Nat := 8 * c.capBytes

/-- `CAP_BITS` = 2048, the default of 00_scope.md R6. -/
def Config.default2048 : Config := ⟨255⟩

/-- The build with a capacity of `bits`, where 00_scope.md R6 allows that capacity. -/
def Config.ofBits (bits : Nat) : Option Config :=
  if h : 8 ≤ bits ∧ bits ≤ 32768 ∧ bits % 8 = 0 then some ⟨⟨bits / 8 - 1, by omega⟩⟩ else none

/-- `SYMW`: bits appended per armor character (00_scope.md R6). -/
abbrev symW : Nat := 6

/-- `MAXW`: the largest read width (00_scope.md R6). -/
abbrev maxW : Nat := 32

end Sys2Proof
end

