-- ==== Sys2Proof/Machine/State.lean ====
section
/-! DEFINITION. The state of one ARMOR6 instance: spec/10_state.md, the command port of spec/30_encoding.md R40, and the
driver's side of it (commands still to come, responses given). -/

namespace Sys2Proof.Machine

/-- The status of a response (30_encoding.md R47). Codes 6 and 7 are never produced, so they have no constructor. -/
inductive Status where
  /-- 0: done as the command's rule says. -/
  | ok
  /-- 1: appending 6 bits would exceed `CAP_BITS`. -/
  | ovf
  /-- 2: the character is not in the armor alphabet. -/
  | badChar
  /-- 3: the current sentence was aborted earlier; this command was skipped. -/
  | aborted
  /-- 4: width or offset outside the valid bits, or pad count larger than `len`. -/
  | rng
  /-- 5: illegal command encoding. -/
  | ill
deriving DecidableEq, Repr

/-- A response: exactly one per accepted command (30_encoding.md R46). -/
structure Response where
  status : Status
  data : Word
deriving DecidableEq, Repr

/-- A fault of the spec with the command that raises it, one constructor per row of the table of 60_exceptions.md
R94. It ends a command, not the machine: the machine answers with a response and goes on. -/
inductive Cause where
  /-- `OVF`, on `PUSH`. -/
  | ovf
  /-- `BADCHAR`, on `PUSH`. -/
  | badChar
  /-- `ABORTED`, on `PUSH`. -/
  | abortedPush
  /-- `ABORTED`, on `PAD`. -/
  | abortedPad
  /-- `RNG`, on a read or on `PAD`. -/
  | rng
  /-- `ILL`, on an illegal word. -/
  | ill
deriving DecidableEq, Repr

/-- What reaches the block between two transactions: a command word or a reset (70_reset_and_hazards.md R111, R120). -/
inductive Event where
  | command (w : Word)
  | reset
deriving DecidableEq, Repr

/-- The command port: at most one command is in flight (30_encoding.md R40; 10_state.md R17, R19). -/
inductive Port where
  /-- No command in flight; the block can accept one. -/
  | idle
  /-- `w` was accepted and its response is not on the port yet. -/
  | busy (w : Word)
  /-- `w` was accepted and this is the one cycle in which its response is on the port. -/
  | responding (w : Word)
deriving DecidableEq, Repr

/-- The bytes of `buf`, as (byte index, byte) pairs: indices strictly rising and no byte equal to 0, which is what a
byte that is not listed reads as (`Memory.wf` in Machine/Ops.lean). The packing of bits into bytes is 10_state.md R14. -/
abbrev Memory := List Host.Cell

/-- One instance. The architectural state of the spec is the triple (`buf`, `len`, `abort`) (10_state.md), and the
command in flight (R17, R19); `cfg` is the build (log 1); `events` and `responses` are the driver's side (log 2). -/
structure State where
  /-- The build parameter `CAP_BITS`; no step writes it (00_scope.md R6, 10_state.md R15). -/
  cfg : Config
  /-- The bit buffer (10_state.md R10, R14). -/
  buf : Memory
  /-- The number of valid bits (10_state.md R11). -/
  len : BitCount
  /-- The abort latch (10_state.md R12). -/
  abort : Bool
  /-- The command in flight (10_state.md R17, R19). -/
  port : Port
  /-- What the driver has yet to present, oldest first (70_reset_and_hazards.md R120). -/
  events : List Event
  /-- The responses given so far, oldest first (70_reset_and_hazards.md R120). -/
  responses : List Response
deriving DecidableEq, Repr

/-- Reasons the machine stops with a fault: there are none. Every fault of the spec is a response after which the
machine goes on (60_exceptions.md R90, R96; 70_reset_and_hazards.md R120: "ARMOR6 never halts"). -/
inductive Fault where
deriving DecidableEq, Repr

/-- Reasons the model gives no meaning: only the interface's own, and no arm of `exec` uses it. -/
inductive Refusal where
  /-- The command has no meaning in this model yet; raised by no arm of `exec`. Safe. -/
  | notModelled (mnemonic : String)
deriving DecidableEq, Repr

/-- The state after reset of a block of the default capacity: 10_state.md R19, 70_reset_and_hazards.md R110. Nothing is
in flight and the driver has presented nothing. -/
def State.reset : State where
  cfg := Config.default2048
  buf := []
  len := 0
  abort := false
  port := .idle
  events := []
  responses := []

end Sys2Proof.Machine
end

