-- ==== Sys2Proof/Machine/Flags.lean ====
section
/-! DEFINITION. The abort latch, the only flag of the block (spec/10_state.md R12), the status codes (spec/30_encoding.md
R47) and the status view (spec/10_state.md R15). -/

namespace Sys2Proof.Machine

/-- The 3-bit status code (30_encoding.md R47). -/
def Status.code : Status → BitVec 3
  | .ok => 0
  | .ovf => 1
  | .badChar => 2
  | .aborted => 3
  | .rng => 4
  | .ill => 5

/-- The status a fault is reported with (60_exceptions.md R90). -/
def Cause.status : Cause → Status
  | .ovf => .ovf
  | .badChar => .badChar
  | .abortedPush => .aborted
  | .abortedPad => .aborted
  | .rng => .rng
  | .ill => .ill

/-- The abort latch after a fault, from the latch before: the last column of the table of 60_exceptions.md R94. -/
def Cause.abortAfter : Cause → Bool → Bool
  | .ovf, _ => true
  | .badChar, _ => true
  | .abortedPush, old => old
  | .abortedPad, _ => false
  | .rng, old => old
  | .ill, old => old

/-- The status view `zext_32(abort ++ len)`: `len` in bits 15:0, `abort` in bit 16, zeros above (10_state.md R15,
40_accumulator_control.md R62). -/
def statusView (s : State) : Word := 0#15 ++ BitVec.ofBool s.abort ++ s.len

end Sys2Proof.Machine
end

