-- ==== Sys2Proof/Machine/Ops.lean ====
section
/-! DEFINITION. The named operations: the bit buffer (spec/20_memory.md R20 to R23, spec/10_state.md R14), responding
(spec/30_encoding.md R46), taking a fault (spec/60_exceptions.md R94), emptying the accumulator and reset. -/

namespace Sys2Proof.Machine

/-! ### The byte array -/

/-- The canonical form of a memory: byte indices strictly rising, no listed byte equal to what an unlisted byte
reads as. -/
abbrev Memory.wf (m : Memory) : Prop :=
  m.Pairwise (fun c d => c.1 < d.1) ∧ ∀ c ∈ m, c.2 ≠ 0

/-- Byte `j` of `buf`. A byte that is not listed holds no bit written as 1 since the last clear, so it reads as 0
(10_state.md R17, R19). -/
def Memory.byteAt : Memory → Nat → Byte
  | [], _ => 0
  | c :: m, j => if c.1 = j then c.2 else Memory.byteAt m j

/-- The memory with byte `j` not listed. -/
def Memory.remove (m : Memory) (j : Nat) : Memory := m.filter fun c => c.1 != j

/-- The memory with the cell `c` listed, before the first cell of a larger index. -/
def Memory.insert (c : Host.Cell) : Memory → Memory
  | [] => [c]
  | d :: m => if c.1 < d.1 then c :: d :: m else d :: Memory.insert c m

/-- The memory with byte `j` equal to `b`. -/
def Memory.setByte (m : Memory) (j : Nat) (b : Byte) : Memory :=
  if b = 0 then m.remove j else Memory.insert (j, b) (m.remove j)

/-! ### The bits of the byte array -/

/-- The byte `x` with its bit `k` equal to `b`: a store, not an OR (20_memory.md R23). -/
def putBit (x : Byte) (k : Nat) (b : Bool) : Byte :=
  if b then x ||| ((1 : Byte) <<< k) else x &&& ~~~((1 : Byte) <<< k)

/-- `buf[i]`: bit `7 - (i mod 8)` of byte `i div 8` (10_state.md R14). -/
def Memory.bitAt (m : Memory) (i : Nat) : Bool := (m.byteAt (i / 8)).getLsbD (7 - i % 8)

/-- `buf[i] <- b` (10_state.md R14). -/
def Memory.setBit (m : Memory) (i : Nat) (b : Bool) : Memory :=
  m.setByte (i / 8) (putBit (m.byteAt (i / 8)) (7 - i % 8) b)

/-- `MemRead(off, n)`: the unsigned integer `buf[off] ++ ... ++ buf[off+n-1]`, first bit most significant
(20_memory.md R22). -/
def Memory.read (m : Memory) (off : Nat) : Nat → Nat
  | 0 => 0
  | n + 1 => 2 * m.read off n + (m.bitAt (off + n)).toNat

/-- The first `count` stores of `MemWrite(off, n, v)`: `buf[off + k] <- v[n-1-k]` for k below `count`. -/
def Memory.writeFirst {n : Nat} (m : Memory) (off : Nat) (v : BitVec n) : Nat → Memory
  | 0 => m
  | k + 1 => (m.writeFirst off v k).setBit (off + k) (v.getLsbD (n - 1 - k))

/-- `MemWrite(off, n, v)`: `buf[off + k] <- v[n-1-k]` for k = 0 .. n-1 (20_memory.md R23). -/
def Memory.write {n : Nat} (m : Memory) (off : Nat) (v : BitVec n) : Memory := m.writeFirst off v n

/-- The content: `buf[0] .. buf[len-1]`, in order (10_state.md R11). -/
def State.content (s : State) : List Bool := (List.range s.len.toNat).map s.buf.bitAt

/-! ### Responses and faults -/

/-- `respond(status, data)`: the command's one response (30_encoding.md R46, 00_scope.md R7). -/
def respond (status : Status) (data : Word) (s : State) : State :=
  { s with responses := s.responses ++ [⟨status, data⟩] }

/-- Taking a fault: the response has the fault's status and data 0, the abort latch becomes what the table says, and
nothing else is written or saved (60_exceptions.md R90, R94). -/
def raiseFault (c : Cause) (s : State) : State :=
  respond c.status 0 { s with abort := c.abortAfter s.abort }

/-! ### Emptying the accumulator -/

/-- Every cell 0, `len` 0, `abort` 0: the writes of `CLR` (40_accumulator_control.md R61) and, with `raiseFault` of
`abortedPad`, one of the two ways out of the aborted condition (60_exceptions.md R96). -/
def clearAccumulator (s : State) : State := { s with buf := [], len := 0, abort := false }

/-- Reset: the state of 10_state.md R19 whatever it was, and a command in flight dropped without a response
(70_reset_and_hazards.md R110, R111). The build, what the driver has yet to present and the responses it already has are
not the block's state. -/
def resetBlock (s : State) : State := { clearAccumulator s with port := .idle }

end Sys2Proof.Machine
end

