-- ==== Sys2Proof/Machine/Operands.lean ====
section
/-! DEFINITION. The operands: the armor alphabet and value of a character (spec/30_encoding.md R50, R51, R53), the count
of a pad character (R54), the validity of a read (spec/42_bitfield_read.md R82). -/

namespace Sys2Proof.Machine

/-- `ch in ALPHABET`: 0x30 to 0x57 or 0x60 to 0x77, all 8 bits compared (30_encoding.md R50; 90_conflicts.md C1). -/
def inAlphabet (ch : Byte) : Bool :=
  decide (0x30 ≤ ch.toNat ∧ ch.toNat ≤ 0x57) || decide (0x60 ≤ ch.toNat ∧ ch.toNat ≤ 0x77)

/-- The formula of 30_encoding.md R51 on a character code: subtract 48, and 8 more if the result is 40 or above. It is
formed only for characters of the alphabet (41_armor_append.md R76). -/
def armorNumber (ch : Byte) : Nat :=
  let t := ch.toNat - 48
  if t ≥ 40 then t - 8 else t

/-- The armor value as the six bits that are appended (30_encoding.md R51, 41_armor_append.md R76). -/
def armor (ch : Byte) : Sextet := BitVec.ofNat 6 (armorNumber ch)

/-- The count of a numeric pad character, `ch - 48` for `'0'` to `'9'`; none where the character is non-numeric
(30_encoding.md R54; 90_conflicts.md C6). -/
def padDigit (ch : Byte) : Option Nat :=
  if 0x30 ≤ ch.toNat ∧ ch.toNat ≤ 0x39 then some (ch.toNat - 48) else none

/-- A read is valid when `1 <= n <= 32` and `off + n <= len`, the sum formed without wrap (42_bitfield_read.md R82,
30_encoding.md R44). -/
def readValid (s : State) (off : BitCount) (n : FieldWidth) : Bool :=
  decide (1 ≤ n.toNat ∧ n.toNat ≤ maxW ∧ off.toNat + n.toNat ≤ s.len.toNat)

/-- `zext_32` of an n-bit field with value `u` (42_bitfield_read.md R80). -/
def unsignedData (u : Nat) : Word := BitVec.ofNat 32 u

/-- `sext_32` of an n-bit field with value `u` and first bit `sign`: the 32-bit word of `u - 2^n` when the first bit is
1, of `u` otherwise (42_bitfield_read.md R81). -/
def signedData (sign : Bool) (u n : Nat) : Word :=
  BitVec.ofInt 32 (if sign then (u : Int) - 2 ^ n else u)

end Sys2Proof.Machine
end

