-- ==== Sys2Proof/Machine/Append.lean ====
section
/-! DEFINITION. The armor append commands PUSH, PAD: spec/41_armor_append.md. -/

namespace Sys2Proof.Machine

/-- The append of a successful `PUSH`: six bits stored at `len`, most significant first, and `len <- len + 6`
(41_armor_append.md R70). -/
def appendSextet (v : Sextet) (s : State) : State :=
  { s with buf := s.buf.write s.len.toNat v, len := BitVec.ofNat 16 (s.len.toNat + symW) }

/-- `PUSH ch`, the tests in the order of 41_armor_append.md R70 (60_exceptions.md R93). -/
def execPush (ch : Byte) (s : State) : Host.Outcome State Fault Refusal :=
  if s.abort then .next (raiseFault .abortedPush s)
  else if !inAlphabet ch then .next (raiseFault .badChar s)
  else if s.len.toNat + symW > s.cfg.capBits then .next (raiseFault .ovf s)
  else .next (respond .ok ((armor ch).setWidth 32) (appendSextet (armor ch) s))

/-- The cut of a successful `PAD`: `len <- len - p`; `buf` is not written (41_armor_append.md R73). -/
def cutBits (p : Nat) (s : State) : State := { s with len := BitVec.ofNat 16 (s.len.toNat - p) }

/-- `PAD ch`, the tests in the order of 41_armor_append.md R73, R74; a non-numeric `ch` cuts nothing. -/
def execPad (ch : Byte) (s : State) : Host.Outcome State Fault Refusal :=
  if s.abort then .next (raiseFault .abortedPad s)
  else
    match padDigit ch with
    | none => .next (respond .ok (s.len.setWidth 32) s)
    | some p =>
      if p > s.len.toNat then .next (raiseFault .rng s)
      else .next (respond .ok ((cutBits p s).len.setWidth 32) (cutBits p s))

end Sys2Proof.Machine
end

