-- ==== Sys2Proof/Machine/Control.lean ====
section
/-! DEFINITION. The accumulator control commands NOP, CLR, STAT: spec/40_accumulator_control.md. -/

namespace Sys2Proof.Machine

/-- `NOP` (40_accumulator_control.md R60). -/
def execNop (s : State) : Host.Outcome State Fault Refusal := .next (respond .ok 0 s)

/-- `CLR` (40_accumulator_control.md R61). -/
def execClr (s : State) : Host.Outcome State Fault Refusal := .next (respond .ok 0 (clearAccumulator s))

/-- `STAT` (40_accumulator_control.md R62). -/
def execStat (s : State) : Host.Outcome State Fault Refusal := .next (respond .ok (statusView s) s)

end Sys2Proof.Machine
end

