-- ==== Sys2Proof/Machine/Read.lean ====
section
/-! DEFINITION. The bit-field read commands RDU, RDS: spec/42_bitfield_read.md. -/

namespace Sys2Proof.Machine

/-- `RDU off, n` (42_bitfield_read.md R80, R82). -/
def execRdu (off : BitCount) (n : FieldWidth) (s : State) : Host.Outcome State Fault Refusal :=
  if readValid s off n then .next (respond .ok (unsignedData (s.buf.read off.toNat n.toNat)) s)
  else .next (raiseFault .rng s)

/-- `RDS off, n` (42_bitfield_read.md R81, R82). -/
def execRds (off : BitCount) (n : FieldWidth) (s : State) : Host.Outcome State Fault Refusal :=
  if readValid s off n then
    .next (respond .ok (signedData (s.buf.bitAt off.toNat) (s.buf.read off.toNat n.toNat) n.toNat) s)
  else .next (raiseFault .rng s)

end Sys2Proof.Machine
end

