-- ==== Sys2Proof/Machine/Dispatch.lean ====
section
/-! DEFINITION. One arm per command: spec/30_encoding.md R41. -/

namespace Sys2Proof.Machine

def exec (i : Instr) (s : State) : Host.Outcome State Fault Refusal :=
  match i with
  | .nop => Sys2Proof.Machine.execNop s
  | .clr => Sys2Proof.Machine.execClr s
  | .push ch => Sys2Proof.Machine.execPush ch s
  | .pad ch => Sys2Proof.Machine.execPad ch s
  | .rdu off n => Sys2Proof.Machine.execRdu off n s
  | .rds off n => Sys2Proof.Machine.execRds off n s
  | .stat => Sys2Proof.Machine.execStat s

end Sys2Proof.Machine
end

