-- ==== Sys2Proof/Machine/Fetch.lean ====
section
/-! DEFINITION. Taking an event from the command port: spec/30_encoding.md R40, R45, spec/70_reset_and_hazards.md R110,
R111. The block fetches nothing (spec/10_state.md R13); commands come from the port. -/

namespace Sys2Proof.Machine

/-- One command word, accepted and run to completion: its command's rule, or `ILL` where it is not one of the seven
commands (30_encoding.md R45; checked before anything else, 60_exceptions.md R93). -/
def runWord (w : Word) (s : State) : Host.Outcome State Fault Refusal :=
  match decode w with
  | .ok i => exec i s
  | .error _ => .next (raiseFault .ill s)

/-- One event: a command word or a reset (70_reset_and_hazards.md R111). -/
def takeEvent (e : Event) (s : State) : Host.Outcome State Fault Refusal :=
  match e with
  | .command w => runWord w s
  | .reset => .next (resetBlock s)

/-- One transaction: the command in flight is finished; with none in flight the next event is taken; with no event the
block stays quiescent (60_exceptions.md R104, 70_reset_and_hazards.md R120). -/
def transaction (s : State) : Host.Outcome State Fault Refusal :=
  match s.port with
  | .busy w => runWord w { s with port := .idle }
  | .responding w => runWord w { s with port := .idle }
  | .idle =>
    match s.events with
    | [] => .next s
    | e :: rest => takeEvent e { s with events := rest }

/-- The state with the word `w` as the next event and nothing in flight: the driver's program is loaded from outside
the block (log 2). -/
def offerWord (w : Word) (s : State) : State :=
  { s with port := .idle, events := .command w :: s.events }

end Sys2Proof.Machine
end

