-- ==== Sys2Proof/Machine/Step.lean ====
section
/-! DEFINITION. The step, one transaction (spec/30_encoding.md R40), and the state whose next step runs a given word. -/

namespace Sys2Proof.Machine

/-- One step is one transaction (30_encoding.md R40, 70_reset_and_hazards.md R121: no time in the model). -/
def step (s : State) : Host.Outcome State Fault Refusal := transaction s

/-- `s` with a word of the opcode table as the next command the driver presents. -/
def State.withFetchWord (s : State) (nbits w : Nat) : State := offerWord (tableWord nbits w) s

end Sys2Proof.Machine
end

