-- ==== Sys2Proof/Machine/Run.lean ====
section
/-! DEFINITION. Runs: the fold of the command rules over a list of commands or events (spec/20_memory.md R28,
spec/70_reset_and_hazards.md R120), and what a run shows. -/

namespace Sys2Proof.Machine

/-- The commands of a list, in order (20_memory.md R28). -/
def runCommands : List Instr → State → Host.Outcome State Fault Refusal
  | [], s => .next s
  | i :: rest, s =>
    match exec i s with
    | .next t => runCommands rest t
    | .fault r => .fault r
    | .refused r => .refused r

/-- The events of a list, in order (70_reset_and_hazards.md R120). -/
def runEvents : List Event → State → Host.Outcome State Fault Refusal
  | [], s => .next s
  | e :: rest, s =>
    match takeEvent e s with
    | .next t => runEvents rest t
    | .fault r => .fault r
    | .refused r => .refused r

/-- What a run shows (70_reset_and_hazards.md R120): the responses in order, the final (`len`, `abort`) and the content
`buf[0 .. len-1]`. -/
structure Observation where
  responses : List Response
  len : BitCount
  abort : Bool
  content : List Bool
deriving DecidableEq, Repr

/-- The observation of a state (70_reset_and_hazards.md R120): nothing about the cells at or above `len`. -/
def State.observe (s : State) : Observation := ⟨s.responses, s.len, s.abort, s.content⟩

/-! ### Fields and sequences (41_armor_append.md R77, R78) -/

/-- `FIELD "c1 .. cm", d`: one whole payload field and its pad field (30_encoding.md R49). -/
def fieldCommands (cs : List Byte) (d : Byte) : List Instr := cs.map Instr.push ++ [.pad d]

/-- The number of bits a pad character cuts: 0 where it is non-numeric (30_encoding.md R54). -/
def padCount (d : Byte) : Nat := (padDigit d).getD 0

/-- The six bits of an armor value, first appended first: `v[5] .. v[0]` (20_memory.md R21). -/
def sextetBits (v : Sextet) : List Bool := (List.range 6).map fun k => v.getLsbD (5 - k)

/-- The bits of the characters of a payload field, in the order they are appended. -/
def payloadBits (cs : List Byte) : List Bool := cs.flatMap fun c => sextetBits (armor c)

/-- One fragment of a sequence: the characters of its payload field and the first character of its pad field. -/
abbrev Fragment := List Byte × Byte

/-- The fragments of one sequence, from its `CLR` on (41_armor_append.md R78, 70_reset_and_hazards.md R113, R114). -/
def sequenceCommands (fs : List Fragment) : List Instr :=
  .clr :: fs.flatMap fun f => fieldCommands f.1 f.2

/-- The content after a fragment, from the content before: its bits appended, then its own truncation
(41_armor_append.md R78). -/
def appendFragment (bits : List Bool) (f : Fragment) : List Bool :=
  (bits ++ payloadBits f.1).take (bits.length + 6 * f.1.length - padCount f.2)

/-- The content of a whole sequence: the concatenation of the fragments' bits, each after its own truncation
(41_armor_append.md R78). -/
def sequenceBits (fs : List Fragment) : List Bool := fs.foldl appendFragment []

/-- Every fragment of the list is answered `OK` throughout when `len` = L before the first: its characters are in the
alphabet, they fit, and its pad count is at most what is held (the premises of 41_armor_append.md R77). -/
def fragmentsFit (cap : Nat) : Nat → List Fragment → Bool
  | _, [] => true
  | L, f :: rest =>
    f.1.all inAlphabet && decide (L + 6 * f.1.length ≤ cap) && decide (padCount f.2 ≤ L + 6 * f.1.length)
      && fragmentsFit cap (L + 6 * f.1.length - padCount f.2) rest

end Sys2Proof.Machine
end

