-- ==== Sys2Proof/Machine/Assembler.lean ====
section
/-! DEFINITION. The assembler text and the pseudo-commands: spec/30_encoding.md R49. Text is a list of character codes.
What R49 leaves open about the text is log 8. -/

namespace Sys2Proof.Machine

/-! ### Expansion -/

/-- The commands a line stands for (30_encoding.md R49). -/
def expandLine : AsmLine → List Instr
  | .nop => [.nop]
  | .clr => [.clr]
  | .push c => [.push (BitVec.ofNat 8 c)]
  | .pad c => [.pad (BitVec.ofNat 8 c)]
  | .rdu off n => [.rdu (BitVec.ofNat 16 off) (BitVec.ofNat 6 n)]
  | .rds off n => [.rds (BitVec.ofNat 16 off) (BitVec.ofNat 6 n)]
  | .stat => [.stat]
  | .pushs s => (s.map (BitVec.ofNat 8)).map Instr.push
  | .field s c => fieldCommands (s.map (BitVec.ofNat 8)) (BitVec.ofNat 8 c)
  | .fieldEmptyPad s => fieldCommands (s.map (BitVec.ofNat 8)) 0
  | .len => [.stat]
  | .rd6 off => [.rdu (BitVec.ofNat 16 off) 6]

/-- The words of a line, none where an operand is out of its range (30_encoding.md R49). -/
def assembleLine (l : AsmLine) : Option (List Word) :=
  if l.wf then some ((expandLine l).map encode) else none

/-! ### Tokens -/

/-- A token of a line. -/
inductive Token where
  /-- A mnemonic or a number, as it stands. -/
  | word (cs : List Nat)
  /-- A quoted character. -/
  | chr (c : Nat)
  /-- A quoted string. -/
  | str (cs : List Nat)
  | comma
deriving DecidableEq, Repr

/-- Where the lexer stands in a line. -/
inductive LexMode where
  /-- Outside quotes, with the characters of the word under way. -/
  | plain (acc : List Nat)
  /-- After an opening apostrophe. -/
  | chrOpen
  /-- After a backslash in a quoted character. -/
  | chrEsc
  /-- After a quoted character, before the closing apostrophe. -/
  | chrClose (c : Nat)
  /-- Inside a string. -/
  | str (acc : List Nat)
deriving DecidableEq, Repr

/-- The word under way as a token, none where it is empty. -/
def flushWord (acc : List Nat) : List Token := if acc = [] then [] else [.word acc]

/-- The tokens of a line, up to a semicolon outside quotes (30_encoding.md R49: `;` starts a comment; the quote itself
is written with a backslash, and so is the backslash). None where a quote is not closed. -/
def lexLine : LexMode → List Nat → Option (List Token)
  | .plain acc, [] => some (flushWord acc)
  | _, [] => none
  | .plain acc, c :: cs =>
    if c = 0x3B then some (flushWord acc)
    else if c = 0x20 ∨ c = 0x09 ∨ c = 0x0D then (lexLine (.plain []) cs).map (flushWord acc ++ ·)
    else if c = 0x2C then (lexLine (.plain []) cs).map (flushWord acc ++ .comma :: ·)
    else if c = 0x27 then (if acc = [] then lexLine .chrOpen cs else none)
    else if c = 0x22 then (if acc = [] then lexLine (.str []) cs else none)
    else lexLine (.plain (acc ++ [c])) cs
  | .chrOpen, c :: cs =>
    if c = 0x5C then lexLine .chrEsc cs else if c = 0x27 then none else lexLine (.chrClose c) cs
  | .chrEsc, c :: cs => if c = 0x27 ∨ c = 0x5C then lexLine (.chrClose c) cs else none
  | .chrClose c, d :: cs => if d = 0x27 then (lexLine (.plain []) cs).map (.chr c :: ·) else none
  | .str acc, c :: cs =>
    if c = 0x22 then (lexLine (.plain []) cs).map (.str acc :: ·) else lexLine (.str (acc ++ [c])) cs

/-! ### Numbers -/

/-- The value of a digit: `0` to `9`, and `a` to `f` or `A` to `F` for 10 to 15. -/
def digitValue (c : Nat) : Option Nat :=
  if 0x30 ≤ c ∧ c ≤ 0x39 then some (c - 0x30)
  else if 0x41 ≤ c ∧ c ≤ 0x46 then some (c - 0x41 + 10)
  else if 0x61 ≤ c ∧ c ≤ 0x66 then some (c - 0x61 + 10)
  else none

/-- The number the digits of a base write, from the value of the digits before them. -/
def readDigits (base : Nat) : Nat → List Nat → Option Nat
  | v, [] => some v
  | v, c :: cs =>
    match digitValue c with
    | some d => if d < base then readDigits base (v * base + d) cs else none
    | none => none

/-- A number: decimal, or hexadecimal after `0x`, or binary after `0b` (00_scope.md R7). -/
def readNumber : List Nat → Option Nat
  | [] => none
  | 0x30 :: 0x78 :: c :: cs => readDigits 16 0 (c :: cs)
  | 0x30 :: 0x62 :: c :: cs => readDigits 2 0 (c :: cs)
  | cs => readDigits 10 0 cs

/-- A character operand: a quoted character or a number (30_encoding.md R49). -/
def charOperand : Token → Option Nat
  | .chr c => some c
  | .word cs => readNumber cs
  | _ => none

/-- A number operand. -/
def numberOperand : Token → Option Nat
  | .word cs => readNumber cs
  | _ => none

/-! ### Lines -/

/-- The character codes of a mnemonic; mnemonics are upper case (30_encoding.md R49). -/
def codes (name : String) : List Nat := name.toList.map Char.toNat

/-- The line a list of tokens writes: `none` where it is no line, `some none` where it is blank. -/
def parseTokens : List Token → Option (Option AsmLine)
  | [] => some none
  | [.word m] =>
    if m = codes "NOP" then some (some .nop)
    else if m = codes "CLR" then some (some .clr)
    else if m = codes "STAT" then some (some .stat)
    else if m = codes "LEN" then some (some .len)
    else none
  | [.word m, .str s] =>
    if m = codes "PUSHS" then some (some (.pushs s))
    else if m = codes "FIELD" then some (some (.fieldEmptyPad s))
    else none
  | [.word m, x] =>
    if m = codes "PUSH" then (charOperand x).map fun c => some (.push c)
    else if m = codes "PAD" then (charOperand x).map fun c => some (.pad c)
    else if m = codes "RD6" then (numberOperand x).map fun off => some (.rd6 off)
    else none
  | [.word m, .str s, .comma, x] =>
    if m = codes "FIELD" then (charOperand x).map fun c => some (.field s c) else none
  | [.word m, x, .comma, y] =>
    match numberOperand x, numberOperand y with
    | some off, some n =>
      if m = codes "RDU" then some (some (.rdu off n))
      else if m = codes "RDS" then some (some (.rds off n))
      else none
    | _, _ => none
  | _ => none

/-- One line of text (30_encoding.md R49). -/
def parseLine (text : List Nat) : Option (Option AsmLine) := (lexLine (.plain []) text).bind parseTokens

/-- The words of one line of text: none where the text is no line or an operand is out of range. -/
def assembleText (text : List Nat) : Option (List Word) :=
  match parseLine text with
  | some (some l) => assembleLine l
  | some none => some []
  | none => none

/-- The words of a program, one command per line (30_encoding.md R49). -/
def assembleProgram : List (List Nat) → Option (List Word)
  | [] => some []
  | text :: rest => (assembleText text).bind fun ws => (assembleProgram rest).map (ws ++ ·)

end Sys2Proof.Machine
end

