-- ==== Sys2Proof/Machine/Instances.lean ====
section
/-! DEFINITION. Two instances, one per radio channel: spec/60_exceptions.md R105. A model of several instances is the
product of independent copies. -/

namespace Sys2Proof.Machine

/-- The radio channels are exactly A and B (60_exceptions.md R105). -/
inductive Channel where
  | a
  | b
deriving DecidableEq, Repr

/-- Two independent copies (60_exceptions.md R105). -/
structure Instances where
  a : State
  b : State
deriving DecidableEq, Repr

/-- The instance of a channel. -/
def Instances.at (p : Instances) : Channel → State
  | .a => p.a
  | .b => p.b

/-- The pair with the instance of a channel replaced. -/
def Instances.put (p : Instances) (c : Channel) (s : State) : Instances :=
  match c with
  | .a => { p with a := s }
  | .b => { p with b := s }

/-- Events interleaved in any order, each taken by the instance of its channel. -/
def runChannels : List (Channel × Event) → Instances → Host.Outcome Instances Fault Refusal
  | [], p => .next p
  | (c, e) :: rest, p =>
    match takeEvent e (p.at c) with
    | .next t => runChannels rest (p.put c t)
    | .fault r => .fault r
    | .refused r => .refused r

/-- The events of one channel, in order. -/
def eventsOf (c : Channel) (es : List (Channel × Event)) : List Event :=
  es.filterMap fun x => if x.1 = c then some x.2 else none

end Sys2Proof.Machine
end

