-- ==== Sys2Proof/Machine/Port.lean ====
section
/-! DEFINITION. The ports and the command/response handshake, one rising edge of `clk` at a time: spec/30_encoding.md
R40, spec/70_reset_and_hazards.md R110, R111, R121. The latency `LAT` is free: the block's own choice to have the
response ready is an argument of each edge (log 5). -/

namespace Sys2Proof.Machine

/-- What one rising edge of `clk` samples, and the block's own choice at that edge. -/
structure Edge where
  /-- The reset pin. -/
  rst : Bool
  /-- The driver offers a command word on `cmd`. -/
  cmdValid : Bool
  /-- The command word on `cmd`. -/
  cmd : Word
  /-- The block puts the response of the command in flight on the port from this edge on. No pin: it is the free
  latency `LAT` (00_scope.md R6). -/
  finish : Bool
deriving DecidableEq, Repr

/-- The command port after an edge (30_encoding.md R40): a command is accepted when `cmd_valid` and `cmd_ready` are 1
and `rst` is 0; its response is on the port for exactly one cycle; the block is ready again in the cycle after. Reset
drops a command in flight (70_reset_and_hazards.md R111). -/
def nextPort (e : Edge) (p : Port) : Port :=
  if e.rst then .idle
  else
    match p with
    | .idle => if e.cmdValid then (if e.finish then .responding e.cmd else .busy e.cmd) else .idle
    | .busy w => if e.finish then .responding w else .busy w
    | .responding _ => .idle

/-- The event an edge completes: a reset, or the command whose response the driver samples at this edge. -/
def completedEvent (e : Edge) (p : Port) : Option Event :=
  if e.rst then some .reset
  else
    match p with
    | .responding w => some (.command w)
    | _ => none

/-- One rising edge of `clk` (30_encoding.md R40, 70_reset_and_hazards.md R110). A command takes effect as a whole at
the edge that ends its response cycle; until then it has changed no state (10_state.md R17, 20_memory.md R26). -/
def clockEdge (e : Edge) (s : State) : Host.Outcome State Fault Refusal :=
  match completedEvent e s.port with
  | some ev => takeEvent ev { s with port := nextPort e s.port }
  | none => .next { s with port := nextPort e s.port }

/-- A run of rising edges. -/
def runEdges : List Edge → State → Host.Outcome State Fault Refusal
  | [], s => .next s
  | e :: rest, s =>
    match clockEdge e s with
    | .next t => runEdges rest t
    | .fault r => .fault r
    | .refused r => .refused r

/-- The command port after a run of edges. -/
def portAfter : List Edge → Port → Port
  | [], p => p
  | e :: rest, p => portAfter rest (nextPort e p)

/-- The events a run of edges completes, in order. -/
def completedEvents : List Edge → Port → List Event
  | [], _ => []
  | e :: rest, p => (completedEvent e p).toList ++ completedEvents rest (nextPort e p)

/-- `cmd_ready`: 0 while a command is in flight, and while `rst` = 1 (30_encoding.md R40, 70_reset_and_hazards.md R110). -/
def cmdReady (rst : Bool) (p : Port) : Bool := !rst && decide (p = .idle)

/-- The words a run of edges accepts: `cmd` at each edge at which `cmd_valid` and `cmd_ready` are 1 and `rst` is 0
(30_encoding.md R40). -/
def acceptedWords : List Edge → Port → List Word
  | [], _ => []
  | e :: rest, p =>
    (if e.cmdValid && cmdReady e.rst p && !e.rst then [e.cmd] else []) ++ acceptedWords rest (nextPort e p)

/-- The word in flight. -/
def Port.inFlight : Port → List Word
  | .idle => []
  | .busy w => [w]
  | .responding w => [w]

/-- The response to the word `w` in state `s`. -/
def answerTo (w : Word) (s : State) : Option Response :=
  match runWord w s with
  | .next t => t.responses.getLast?
  | .fault _ => none
  | .refused _ => none

/-- The outputs of the block in a cycle. The response is present exactly while `rsp_valid` = 1; in other cycles
`rsp_status` and `rsp_data` have no value (30_encoding.md R40; 93_implementation_defined.md U13). -/
structure PortOut where
  cmdReady : Bool
  rspValid : Bool
  rspStatus : Option (BitVec 3)
  rspData : Option Word
deriving DecidableEq, Repr

/-- The outputs in a cycle with the given level of `rst` (30_encoding.md R40, 70_reset_and_hazards.md R110). -/
def portOut (rst : Bool) (s : State) : PortOut :=
  let shown : Option Response :=
    if rst then none
    else
      match s.port with
      | .responding w => answerTo w { s with port := .idle }
      | _ => none
  ⟨cmdReady rst s.port, shown.isSome, shown.map fun r => r.status.code, shown.map fun r => r.data⟩

end Sys2Proof.Machine
end

