-- ==== Sys2Proof/Machine/Protocol.lean ====
section
/-! DEFINITION. What the driver owes the block: spec/70_reset_and_hazards.md R113 to R118 (log 6); and how a driver reports
the block's faults in the source's classes: spec/60_exceptions.md R106. No rule of the block assumes any of it. -/

namespace Sys2Proof.Machine

/-- Where a driver that keeps its duties stands. -/
inductive DriverPhase where
  /-- After reset or `CLR`: a sequence may begin (70_reset_and_hazards.md R113). -/
  | fresh
  /-- Inside a sentence, its `PAD` not issued yet; `failed` when a `PUSH` of it was not answered `OK` (R114, R116). -/
  | sentence (failed : Bool)
  /-- Every sentence of the sequence so far was closed with `OK`: the next fragment or the reads may follow (R115). -/
  | closed
  /-- The reads of the message (R115). -/
  | reading
  /-- A sentence of the sequence failed: no reads, start again with `CLR` (R116). -/
  | lost
deriving DecidableEq, Repr

/-- The phase after a command and the status it was answered with, none where the command breaks a duty: framing (R114),
phases (R115, R117), an aborted sentence (R116). -/
def driverNext (ph : DriverPhase) (i : Instr) (st : Status) : Option DriverPhase :=
  match i with
  | .nop | .stat => some ph
  | .clr =>
    match ph with
    | .sentence _ => none
    | _ => some .fresh
  | .push _ =>
    match ph with
    | .fresh | .closed => some (.sentence (decide (st ≠ .ok)))
    | .sentence failed => some (.sentence (failed || decide (st ≠ .ok)))
    | .reading | .lost => none
  | .pad _ =>
    match ph with
    | .fresh | .closed => some (if st = .ok then .closed else .lost)
    | .sentence failed => some (if st = .ok ∧ failed = false then .closed else .lost)
    | .reading | .lost => none
  | .rdu _ _ | .rds _ _ =>
    match ph with
    | .closed | .reading => some .reading
    | _ => none

/-- The operand a driver gives `PAD`: the first character of the sentence's pad field, 0x00 where the field is empty
(30_encoding.md R54, 70_reset_and_hazards.md R114). -/
def padOperand (field : List Byte) : Byte := field.headD 0

/-- The status of the last response given. -/
def lastStatus (s : State) : Option Status := s.responses.getLast?.map Response.status

/-- The commands of a list, each allowed by the driver's duties given the statuses of the answers before it. The result
is the driver's phase and the state after them, none where a duty is broken. -/
def runDriver : List Instr → DriverPhase × State → Option (DriverPhase × State)
  | [], x => some x
  | i :: rest, (ph, s) =>
    match exec i s with
    | .next t =>
      match lastStatus t with
      | some st =>
        match driverNext ph i st with
        | some ph' => runDriver rest (ph', t)
        | none => none
      | none => none
    | .fault _ => none
    | .refused _ => none

/-- The command held stable (70_reset_and_hazards.md R118): while `cmd_valid` = 1 and `cmd_ready` = 0 the next edge
offers the same word. -/
def heldStable : List Edge → Port → Bool
  | e :: e' :: rest, p =>
    (!(e.cmdValid && !cmdReady e.rst p) || (e'.cmdValid && decide (e'.cmd = e.cmd)))
      && heldStable (e' :: rest) (nextPort e p)
  | _, _ => true

/-- How a driver folds a fault into the source's classes (60_exceptions.md R106). -/
inductive SourceClass where
  | bufferOverflow
  | malformedSentence
  /-- A defect of the driver itself. -/
  | driverDefect
deriving DecidableEq, Repr

/-- The source's class of a status (60_exceptions.md R106): none for `OK`, and none for `ABORTED`, of which R106 names no
counterpart. -/
def Status.sourceClass : Status → Option SourceClass
  | .ok => none
  | .aborted => none
  | .ovf => some .bufferOverflow
  | .badChar => some .malformedSentence
  | .rng => some .driverDefect
  | .ill => some .driverDefect

end Sys2Proof.Machine
end

