-- ==== Sys2Proof/Safety.lean ====
section
/-! DEFINITION. What a good state is and when two states look the same from outside: spec/10_state.md R17, R18,
spec/20_memory.md R31. -/

namespace Sys2Proof.Machine

/-- The invariant: the memory is in canonical form, lists only bytes that exist, and `len` is at most `CAP_BITS`
(10_state.md R10, R18; 20_memory.md R31). -/
abbrev State.inv (s : State) : Prop :=
  s.buf.wf ∧ (∀ c ∈ s.buf, c.1 < s.cfg.capBytes) ∧ s.len.toNat ≤ s.cfg.capBits

/-- Two states that differ at most in the cells at or above `len` (10_state.md R17). -/
structure SameContent (s t : State) : Prop where
  cfg : s.cfg = t.cfg
  len : s.len = t.len
  abort : s.abort = t.abort
  port : s.port = t.port
  events : s.events = t.events
  responses : s.responses = t.responses
  content : ∀ i, i < s.len.toNat → s.buf.bitAt i = t.buf.bitAt i

/-- The driver's phase agrees with the latch: `abort` is 1 exactly inside a sentence that has failed
(60_exceptions.md R95, R96; 70_reset_and_hazards.md R114). -/
def driverAgrees (ph : DriverPhase) (s : State) : Prop := s.abort = true ↔ ph = .sentence true

end Sys2Proof.Machine
end

