-- ==== Sys2Proof/Certificates/Slice0/Obligations.lean ====
section
/-! DEFINITION. The statements for the provers. A record update `{ s with .. }` as a next state says the whole of it:
every field not named is unchanged (build, cells, `len`, latch, port, events to come), so it is also the frame. -/

open Sys2Proof Sys2Proof.Machine

/-! ### The commands -/

/-- R60: `NOP` is the all-zero word; any other word with `op` = 0 is illegal; `NOP` does nothing but respond, aborted
or not. -/
def Obligations.NopOnlyResponds : Prop :=
  (∀ w : Word, decode w = .ok .nop ↔ w = 0x00000000) ∧
  (∀ w : Word, w.toNat / 2 ^ 28 = 0 → w ≠ 0 → ∃ why, decode w = .error why) ∧
  ∀ s : State, exec .nop s = .next { s with responses := s.responses ++ [⟨.ok, 0⟩] }

/-- R61: `CLR` zeroes every cell, `len` and `abort`, in every state; any read after it, `RDU` or `RDS`, faults; no
other command lowers `len` by more than 9. -/
def Obligations.ClrEmptiesTheAccumulator : Prop :=
  (∀ w : Word, decode w = .ok .clr ↔ w = 0x10000000) ∧
  (∀ (i : Instr) (s t : State), exec i s = .next t → t.len.toNat + 9 < s.len.toNat → i = .clr) ∧
  ∀ s : State, ∃ t : State, exec .clr s = .next t ∧
    (∀ i, t.buf.bitAt i = false) ∧ t.len = 0 ∧ t.abort = false ∧
    t.cfg = s.cfg ∧ t.port = s.port ∧ t.events = s.events ∧ t.responses = s.responses ++ [⟨.ok, 0⟩] ∧
    ∀ (off : BitCount) (n : FieldWidth),
      exec (.rdu off n) t = .next { t with responses := t.responses ++ [⟨.rng, 0⟩] } ∧
      exec (.rds off n) t = .next { t with responses := t.responses ++ [⟨.rng, 0⟩] }

/-- R62: `STAT` returns `len` in bits 15:0, `abort` in bit 16 and zeros above, and writes nothing. -/
def Obligations.StatReturnsLenAndAbort : Prop :=
  (∀ w : Word, decode w = .ok .stat ↔ w = 0x60000000) ∧
  ∀ s : State, ∃ d : Word, exec .stat s = .next { s with responses := s.responses ++ [⟨.ok, d⟩] } ∧
    d.extractLsb' 0 16 = s.len ∧ d.getLsbD 16 = s.abort ∧ ∀ k, 17 ≤ k → d.getLsbD k = false

/-- R70: the encoding of `PUSH` and its four outcomes, each with the whole next state. -/
def Obligations.PushAppendsOneArmorCharacter : Prop :=
  (∀ (w : Word) (ch : Byte), decode w = .ok (.push ch) ↔ w.toNat = 0x20000000 + ch.toNat) ∧
  ∀ (s : State) (ch : Byte),
    (s.abort = true →
      exec (.push ch) s = .next { s with responses := s.responses ++ [⟨.aborted, 0⟩] }) ∧
    (s.abort = false → inAlphabet ch = false →
      exec (.push ch) s = .next { s with abort := true, responses := s.responses ++ [⟨.badChar, 0⟩] }) ∧
    (s.abort = false → inAlphabet ch = true → s.cfg.capBits < s.len.toNat + 6 →
      exec (.push ch) s = .next { s with abort := true, responses := s.responses ++ [⟨.ovf, 0⟩] }) ∧
    (s.abort = false → inAlphabet ch = true → s.len.toNat + 6 ≤ s.cfg.capBits →
      ∃ t : State, exec (.push ch) s = .next t ∧
        (∀ k, k < 6 → t.buf.bitAt (s.len.toNat + k) = (armorNumber ch).testBit (5 - k)) ∧
        (∀ i, i < s.len.toNat ∨ s.len.toNat + 6 ≤ i → t.buf.bitAt i = s.buf.bitAt i) ∧
        t.len.toNat = s.len.toNat + 6 ∧
        t.abort = false ∧ t.cfg = s.cfg ∧ t.port = s.port ∧ t.events = s.events ∧
        t.responses = s.responses ++ [⟨.ok, BitVec.ofNat 32 (armorNumber ch)⟩])

/-- 30_encoding.md section 9 (R53): the 192 codes outside the alphabet, and `BADCHAR` for each of them. That the codes
0x58 to 0x5F are among them is the spec's own inference, from general knowledge (93_implementation_defined.md U3, G1;
log 10). -/
def Obligations.InvalidCharactersFaultBadChar : Prop :=
  (∀ ch : Byte, inAlphabet ch = false ↔
    ch.toNat ≤ 0x2F ∨ (0x58 ≤ ch.toNat ∧ ch.toNat ≤ 0x5F) ∨ 0x78 ≤ ch.toNat) ∧
  ((List.range 256).filter fun c => !inAlphabet (BitVec.ofNat 8 c)).length = 192 ∧
  ∀ (s : State) (ch : Byte), s.abort = false → inAlphabet ch = false →
    exec (.push ch) s = .next { s with abort := true, responses := s.responses ++ [⟨.badChar, 0⟩] }

/-- R72: from a `PUSH` that faults until the next `PAD` or `CLR`, whatever other words come between, the cells and `len`
stay as they were before it, and every `PUSH` answers `ABORTED` and changes nothing; and a run of `PUSH`es with the
latch set answers `ABORTED` throughout. -/
def Obligations.PushesAreSkippedAfterAFaultingPush : Prop :=
  (∀ (s : State) (p : Word) (ch : Byte) (ws : List Word),
    s.abort = false → decode p = .ok (.push ch) → inAlphabet ch = false ∨ s.cfg.capBits < s.len.toNat + 6 →
    (∀ w ∈ ws, decode w ≠ .ok .clr ∧ ∀ d, decode w ≠ .ok (.pad d)) →
    ∃ t : State, runEvents ((p :: ws).map Event.command) s = .next t ∧
      t.buf = s.buf ∧ t.len = s.len ∧ t.abort = true ∧ t.cfg = s.cfg ∧
      ∀ (w : Word) (c : Byte), decode w = .ok (.push c) →
        runWord w t = .next { t with responses := t.responses ++ [⟨.aborted, 0⟩] }) ∧
  ∀ (s : State) (cs : List Byte), s.abort = true →
    runCommands (cs.map Instr.push) s =
      .next { s with responses := s.responses ++ List.replicate cs.length ⟨.aborted, 0⟩ }

/-- R73, R74: the encoding of `PAD` and its outcomes, each with the whole next state. -/
def Obligations.PadTruncates : Prop :=
  (∀ (w : Word) (ch : Byte), decode w = .ok (.pad ch) ↔ w.toNat = 0x30000000 + ch.toNat) ∧
  ∀ (s : State) (ch : Byte),
    (s.abort = true →
      exec (.pad ch) s = .next { s with abort := false, responses := s.responses ++ [⟨.aborted, 0⟩] }) ∧
    (s.abort = false → 0x30 ≤ ch.toNat → ch.toNat ≤ 0x39 → s.len.toNat < ch.toNat - 48 →
      exec (.pad ch) s = .next { s with responses := s.responses ++ [⟨.rng, 0⟩] }) ∧
    (s.abort = false → 0x30 ≤ ch.toNat → ch.toNat ≤ 0x39 → ch.toNat - 48 ≤ s.len.toNat →
      ∃ l : BitCount, l.toNat = s.len.toNat - (ch.toNat - 48) ∧
        exec (.pad ch) s =
          .next { s with len := l, responses := s.responses ++ [⟨.ok, BitVec.ofNat 32 l.toNat⟩] }) ∧
    (s.abort = false → ch.toNat < 0x30 ∨ 0x39 < ch.toNat →
      exec (.pad ch) s =
        .next { s with responses := s.responses ++ [⟨.ok, BitVec.ofNat 32 s.len.toNat⟩] })

/-- R80: the encoding of `RDU`; a valid read returns the field zero-extended, any other faults `RNG`. -/
def Obligations.RduReadsUnsignedField : Prop :=
  (∀ (w : Word) (off : BitCount) (n : FieldWidth),
    decode w = .ok (.rdu off n) ↔ w.toNat = 0x40000000 + n.toNat * 2 ^ 22 + off.toNat) ∧
  ∀ (s : State) (off : BitCount) (n : FieldWidth),
    (1 ≤ n.toNat → n.toNat ≤ 32 → off.toNat + n.toNat ≤ s.len.toNat →
      ∃ d : Word, exec (.rdu off n) s = .next { s with responses := s.responses ++ [⟨.ok, d⟩] } ∧
        (∀ k, k < n.toNat → d.getLsbD (n.toNat - 1 - k) = s.buf.bitAt (off.toNat + k)) ∧
        ∀ k, n.toNat ≤ k → d.getLsbD k = false) ∧
    (n.toNat < 1 ∨ 32 < n.toNat ∨ s.len.toNat < off.toNat + n.toNat →
      exec (.rdu off n) s = .next { s with responses := s.responses ++ [⟨.rng, 0⟩] })

/-- R81: the encoding of `RDS`; a valid read returns the field sign-extended from its first bit. -/
def Obligations.RdsReadsSignedField : Prop :=
  (∀ (w : Word) (off : BitCount) (n : FieldWidth),
    decode w = .ok (.rds off n) ↔ w.toNat = 0x50000000 + n.toNat * 2 ^ 22 + off.toNat) ∧
  ∀ (s : State) (off : BitCount) (n : FieldWidth),
    (1 ≤ n.toNat → n.toNat ≤ 32 → off.toNat + n.toNat ≤ s.len.toNat →
      ∃ d : Word, exec (.rds off n) s = .next { s with responses := s.responses ++ [⟨.ok, d⟩] } ∧
        (∀ k, k < n.toNat → d.getLsbD (n.toNat - 1 - k) = s.buf.bitAt (off.toNat + k)) ∧
        (∀ k, n.toNat ≤ k → k < 32 → d.getLsbD k = s.buf.bitAt off.toNat) ∧
        d.toInt = if s.buf.bitAt off.toNat then (s.buf.read off.toNat n.toNat : Int) - 2 ^ n.toNat
          else s.buf.read off.toNat n.toNat) ∧
    (n.toNat < 1 ∨ 32 < n.toNat ∨ s.len.toNat < off.toNat + n.toNat →
      exec (.rds off n) s = .next { s with responses := s.responses ++ [⟨.rng, 0⟩] })

/-- R82: both reads fault exactly when the read is not valid; the fault is in the response and nowhere else. -/
def Obligations.ReadsFaultExactlyOutsideTheContent : Prop :=
  ∀ (s : State) (off : BitCount) (n : FieldWidth) (i : Instr), i = .rdu off n ∨ i = .rds off n →
    ∃ r : Response, exec i s = .next { s with responses := s.responses ++ [r] } ∧
      (r.status = .ok ↔ 1 ≤ n.toNat ∧ n.toNat ≤ 32 ∧ off.toNat + n.toNat ≤ s.len.toNat) ∧
      (r.status ≠ .ok → r = ⟨.rng, 0⟩)

/-- R83: the range of an unsigned read, the signed read against the unsigned one, and the composition of two reads. -/
def Obligations.ReadLaws : Prop :=
  ∀ (s : State) (off : BitCount) (n : FieldWidth),
    1 ≤ n.toNat → n.toNat ≤ 32 → off.toNat + n.toNat ≤ s.len.toNat →
    ∃ u g : Word,
      exec (.rdu off n) s = .next { s with responses := s.responses ++ [⟨.ok, u⟩] } ∧
      exec (.rds off n) s = .next { s with responses := s.responses ++ [⟨.ok, g⟩] } ∧
      u.toNat < 2 ^ n.toNat ∧
      g.toNat = (if s.buf.bitAt off.toNat then u.toNat + (2 ^ 32 - 2 ^ n.toNat) else u.toNat) ∧
      ∀ (a b : FieldWidth) (off' : BitCount), 1 ≤ a.toNat → 1 ≤ b.toNat → a.toNat + b.toNat = n.toNat →
        off'.toNat = off.toNat + a.toNat →
        ∃ x y : Word,
          exec (.rdu off a) s = .next { s with responses := s.responses ++ [⟨.ok, x⟩] } ∧
          exec (.rdu off' b) s = .next { s with responses := s.responses ++ [⟨.ok, y⟩] } ∧
          u.toNat = x.toNat * 2 ^ b.toNat + y.toNat

/-! ### The buffer -/

/-- R22: `MemRead` is the sum of the bits with the first bit most significant, below 2^n. -/
def Obligations.MemReadIsTheBigEndianSum : Prop :=
  ∀ (m : Memory) (off n : Nat),
    m.read off n = (∑ k ∈ Finset.range n, (m.bitAt (off + k)).toNat * 2 ^ (n - 1 - k)) ∧ m.read off n < 2 ^ n

/-- 20_memory.md section 3, derived from R22 and R23 together: what `MemWrite` stores `MemRead` reads back, over
whatever stood there (a store, not an OR), and a field that does not meet the written cells reads as before. -/
def Obligations.MemReadAfterMemWrite : Prop :=
  ∀ (m : Memory) (off n : Nat) (v : BitVec n),
    (m.write off v).read off n = v.toNat ∧
    ∀ off' n', off' + n' ≤ off ∨ off + n ≤ off' → (m.write off v).read off' n' = m.read off' n'

/-- 10_state.md section 1 (R14): `buf[i]` is bit `7 - (i mod 8)` of byte `i div 8`. That `RDU 8j, 8` returns byte `j`
is the spec's own inference from R14 and R80; the list of bytes is the model's form of `buf` (log 3). -/
def Obligations.RduOfAByteReturnsTheByteView : Prop :=
  ∀ (s : State) (j : Nat) (off : BitCount), off.toNat = 8 * j → 8 * j + 8 ≤ s.len.toNat →
    (∀ k, k < 8 → s.buf.bitAt (8 * j + k) = (s.buf.byteAt j).getLsbD (7 - k)) ∧
    exec (.rdu off 8) s =
      .next { s with responses := s.responses ++ [⟨.ok, BitVec.ofNat 32 (s.buf.byteAt j).toNat⟩] }

/-- 20_memory.md section 2, the spec's own inference from R22 and R23: two characters appended are one bit sequence:
12 bits read `v1 * 64 + v2`, and 6 bits at offset + 3 straddle. -/
def Obligations.MixedWidthsSeeOneBitSequence : Prop :=
  ∀ (s : State) (c1 c2 : Byte) (off3 : BitCount),
    s.abort = false → inAlphabet c1 = true → inAlphabet c2 = true → s.len.toNat + 12 ≤ s.cfg.capBits →
    off3.toNat = s.len.toNat + 3 →
    ∃ t : State, runCommands [.push c1, .push c2] s = .next t ∧
      exec (.rdu s.len 12) t =
        .next { t with responses := t.responses ++ [⟨.ok, BitVec.ofNat 32 (armorNumber c1 * 64 + armorNumber c2)⟩] } ∧
      exec (.rdu off3 6) t =
        .next { t with responses := t.responses ++
          [⟨.ok, BitVec.ofNat 32 (armorNumber c1 % 8 * 8 + armorNumber c2 / 8)⟩] }

/-- 10_state.md section 1 (the writers of R10): a cell changes only under `PUSH` (one of the six at `len`), `CLR` and
reset. -/
def Obligations.OnlyPushClrAndResetWriteCells : Prop :=
  ∀ (e : Event) (s t : State) (k : Nat), takeEvent e s = .next t → t.buf.bitAt k ≠ s.buf.bitAt k →
    e = .reset ∨
    ∃ w, e = .command w ∧
      (decode w = .ok .clr ∨
        ∃ ch, decode w = .ok (.push ch) ∧ s.len.toNat ≤ k ∧ k < s.len.toNat + 6 ∧
          t.len.toNat = s.len.toNat + 6)

/-- 10_state.md section 2 (the writers of R11): what each event leaves in `len`; no other command writes it. -/
def Obligations.OnlyPushPadClrAndResetWriteLen : Prop :=
  ∀ (e : Event) (s t : State), takeEvent e s = .next t →
    t.len = s.len ∨
    ((e = .reset ∨ ∃ w, e = .command w ∧ decode w = .ok .clr) ∧ t.len = 0) ∨
    (∃ w ch, e = .command w ∧ decode w = .ok (.push ch) ∧ t.len.toNat = s.len.toNat + 6 ∧
      t.len.toNat ≤ s.cfg.capBits) ∨
    ∃ w ch p, e = .command w ∧ decode w = .ok (.pad ch) ∧ padDigit ch = some p ∧ p ≤ s.len.toNat ∧
      t.len.toNat = s.len.toNat - p

/-! ### The latch, the faults, the responses -/

/-- R12: what sets and clears the latch, who reads it, and who does not. -/
def Obligations.AbortLatchIsSetAndClearedAsStated : Prop :=
  (∀ (e : Event) (s t : State), takeEvent e s = .next t →
    (s.abort = false → (t.abort = true ↔
      ∃ w ch, e = .command w ∧ decode w = .ok (.push ch) ∧
        (t.responses = s.responses ++ [⟨.ovf, 0⟩] ∨ t.responses = s.responses ++ [⟨.badChar, 0⟩]))) ∧
    (s.abort = true → t.abort = false →
      e = .reset ∨ ∃ w, e = .command w ∧ (decode w = .ok .clr ∨ ∃ ch, decode w = .ok (.pad ch))) ∧
    ((e = .reset ∨ ∃ w, e = .command w ∧ (decode w = .ok .clr ∨ ∃ ch, decode w = .ok (.pad ch))) →
      t.abort = false)) ∧
  (∀ (s : State) (ch : Byte), s.abort = true →
    exec (.push ch) s = .next { s with responses := s.responses ++ [⟨.aborted, 0⟩] } ∧
    exec (.pad ch) s = .next { s with abort := false, responses := s.responses ++ [⟨.aborted, 0⟩] }) ∧
  (∀ s : State, ∃ d : Word, exec .stat s = .next { s with responses := s.responses ++ [⟨.ok, d⟩] } ∧
    d.getLsbD 16 = s.abort) ∧
  ∀ (s t : State) (i : Instr) (b : Bool),
    (i = .nop ∨ (∃ off n, i = .rdu off n) ∨ ∃ off n, i = .rds off n) → exec i s = .next t →
      exec i { s with abort := b } = .next { t with abort := b }

/-- R46: exactly one response to a word, its data on a fault and on `OK`. -/
def Obligations.EveryWordGetsExactlyOneResponse : Prop :=
  ∀ (w : Word) (s : State), ∃ (t : State) (r : Response), runWord w s = .next t ∧
    t.responses = s.responses ++ [r] ∧
    (r.status ≠ .ok → r.data = 0) ∧
    (r.status = .ok →
      match decode w with
      | .error _ => False
      | .ok .nop => r.data = 0
      | .ok .clr => r.data = 0
      | .ok (.push ch) => r.data.toNat = armorNumber ch
      | .ok (.pad _) => r.data.toNat = t.len.toNat
      | .ok (.rdu off n) => r.data.toNat = s.buf.read off.toNat n.toNat
      | .ok (.rds off n) => r.data.toInt =
          if s.buf.bitAt off.toNat then (s.buf.read off.toNat n.toNat : Int) - 2 ^ n.toNat
          else s.buf.read off.toNat n.toNat
      | .ok .stat => r.data.toNat = s.abort.toNat * 2 ^ 16 + s.len.toNat)

/-- R90, R93: each fault has exactly its cause, so a word has at most one and the order of the tests is R93's; its
code is R90's and its data 0; it records nothing anywhere, and sets the latch exactly where R90 says. -/
def Obligations.EachFaultHasExactlyItsCause : Prop :=
  ∀ (w : Word) (s t : State) (r : Response), runWord w s = .next t → t.responses = s.responses ++ [r] →
    (r.status = .ill ↔ ∃ why, decode w = .error why) ∧
    (r.status = .aborted ↔
      s.abort = true ∧ ((∃ ch, decode w = .ok (.push ch)) ∨ ∃ ch, decode w = .ok (.pad ch))) ∧
    (r.status = .badChar ↔ s.abort = false ∧ ∃ ch, decode w = .ok (.push ch) ∧ inAlphabet ch = false) ∧
    (r.status = .ovf ↔ s.abort = false ∧ ∃ ch, decode w = .ok (.push ch) ∧ inAlphabet ch = true ∧
      s.cfg.capBits < s.len.toNat + 6) ∧
    (r.status = .rng ↔
      (∃ off n, (decode w = .ok (.rdu off n) ∨ decode w = .ok (.rds off n)) ∧
        ¬ (1 ≤ n.toNat ∧ n.toNat ≤ 32 ∧ off.toNat + n.toNat ≤ s.len.toNat)) ∨
      (s.abort = false ∧ ∃ ch, decode w = .ok (.pad ch) ∧ 0x30 ≤ ch.toNat ∧ ch.toNat ≤ 0x39 ∧
        s.len.toNat < ch.toNat - 48)) ∧
    (r.status ≠ .ok → r.data = 0) ∧
    (r.status = .ovf ∨ r.status = .badChar → t.abort = true) ∧
    (r.status = .aborted → (t.abort = true ↔ ∃ ch, decode w = .ok (.push ch))) ∧
    (r.status = .rng ∨ r.status = .ill → t.abort = s.abort) ∧
    (r.status ≠ .ok → t = { s with abort := t.abort, responses := s.responses ++ [r] }) ∧
    Status.ovf.code = 1 ∧ Status.badChar.code = 2 ∧ Status.aborted.code = 3 ∧ Status.rng.code = 4 ∧
    Status.ill.code = 5

/-- R94: a fault writes nothing but the latch, and the latch as its table says. -/
def Obligations.AFaultWritesOnlyTheLatch : Prop :=
  ∀ (w : Word) (s t : State) (r : Response), runWord w s = .next t → t.responses = s.responses ++ [r] →
    r.status ≠ .ok →
    t = { s with abort := t.abort, responses := s.responses ++ [r] } ∧
    (r.status = .ovf ∨ r.status = .badChar → t.abort = true) ∧
    (r.status = .aborted → (∃ ch, decode w = .ok (.push ch)) → t.abort = true) ∧
    (r.status = .aborted → (∃ ch, decode w = .ok (.pad ch)) → t.abort = false) ∧
    (r.status = .rng ∨ r.status = .ill → t.abort = s.abort)

/-- R95: the commands while `abort` = 1. The ones that work normally answer as they do with the latch clear. -/
def Obligations.CommandsInTheAbortedCondition : Prop :=
  ∀ (w : Word) (s t : State), s.abort = true → runWord w s = .next t →
    match decode w with
    | .ok (.push _) => t = { s with responses := s.responses ++ [⟨.aborted, 0⟩] }
    | .ok (.pad _) => t = { s with abort := false, responses := s.responses ++ [⟨.aborted, 0⟩] }
    | .ok .clr => t.abort = false ∧ t.len = 0 ∧ (∀ i, t.buf.bitAt i = false) ∧
        t.responses = s.responses ++ [⟨.ok, 0⟩]
    | .ok .nop => t = { s with responses := s.responses ++ [⟨.ok, 0⟩] }
    | .ok .stat => ∃ d : Word, t = { s with responses := s.responses ++ [⟨.ok, d⟩] } ∧
        d.toNat = 2 ^ 16 + s.len.toNat
    | .ok (.rdu _ _) => ∃ u, runWord w { s with abort := false } = .next u ∧ t = { u with abort := true }
    | .ok (.rds _ _) => ∃ u, runWord w { s with abort := false } = .next u ∧ t = { u with abort := true }
    | .error _ => t = { s with responses := s.responses ++ [⟨.ill, 0⟩] }

/-- R27: `RDU`, `RDS`, `STAT`, `NOP` change no state, and repeated in any later state with the same cells, `len` and
`abort`, whatever was answered in between, give the same response; `CLR` is idempotent; `PUSH` and `PAD` are not: each
repetition appends or cuts again. -/
def Obligations.ReadsRepeatAndClrIsIdempotent : Prop :=
  (∀ (s u : State) (i : Instr),
    (i = .nop ∨ i = .stat ∨ (∃ off n, i = .rdu off n) ∨ ∃ off n, i = .rds off n) →
    (∀ k, u.buf.bitAt k = s.buf.bitAt k) → u.len = s.len → u.abort = s.abort →
    ∃ r : Response, exec i s = .next { s with responses := s.responses ++ [r] } ∧
      exec i u = .next { u with responses := u.responses ++ [r] }) ∧
  (∀ s t : State, exec .clr s = .next t →
    exec .clr t = .next { t with responses := t.responses ++ [⟨.ok, 0⟩] }) ∧
  (∀ (s : State) (ch : Byte), s.abort = false → inAlphabet ch = true → s.len.toNat + 12 ≤ s.cfg.capBits →
    ∃ t u : State, exec (.push ch) s = .next t ∧ exec (.push ch) t = .next u ∧
      t.len.toNat = s.len.toNat + 6 ∧ u.len.toNat = s.len.toNat + 12) ∧
  ∀ (s : State) (ch : Byte), s.abort = false → 2 * padCount ch ≤ s.len.toNat →
    ∃ t u : State, exec (.pad ch) s = .next t ∧ exec (.pad ch) t = .next u ∧
      t.len.toNat = s.len.toNat - padCount ch ∧ u.len.toNat = s.len.toNat - 2 * padCount ch

/-- 30_encoding.md section 6 (the numbers of R47): the status codes; 6 and 7 are no status. -/
def Obligations.StatusCodesAreAsNumbered : Prop :=
  Status.ok.code = 0 ∧ Status.ovf.code = 1 ∧ Status.badChar.code = 2 ∧ Status.aborted.code = 3 ∧
  Status.rng.code = 4 ∧ Status.ill.code = 5 ∧ ∀ st : Status, st.code ≠ 6 ∧ st.code ≠ 7

/-! ### The armor alphabet -/

/-- 30_encoding.md section 9 (R50, R51): the alphabet, whose excluded codes the spec takes from general knowledge (log
10), the armor value in closed form, and the bijection onto 0 .. 63. -/
def Obligations.ArmorIsABijectionOnTheAlphabet : Prop :=
  (∀ ch : Byte, inAlphabet ch = true ↔
    (0x30 ≤ ch.toNat ∧ ch.toNat ≤ 0x57) ∨ (0x60 ≤ ch.toNat ∧ ch.toNat ≤ 0x77)) ∧
  (∀ ch : Byte, inAlphabet ch = true →
    (armor ch).toNat = if ch.toNat ≤ 0x57 then ch.toNat - 48 else ch.toNat - 56) ∧
  ∀ v : Sextet, ∃! ch : Byte, inAlphabet ch = true ∧ armor ch = v

/-- 30_encoding.md section 9: a pad character is numeric exactly from `'0'` to `'9'`, and counts `ch - 48` bits. -/
def Obligations.PadCharacterCounts : Prop :=
  ∀ ch : Byte,
    (0x30 ≤ ch.toNat ∧ ch.toNat ≤ 0x39 → padCount ch = ch.toNat - 48 ∧ padDigit ch = some (ch.toNat - 48)) ∧
    (ch.toNat < 0x30 ∨ 0x39 < ch.toNat → padCount ch = 0 ∧ padDigit ch = none)

/-! ### Encoding -/

/-- 30_encoding.md sections 3 to 5 (R55 is the spec's own inference): every command decodes from its encoding, with
every operand at every value. -/
def Obligations.DecodeOfEncode : Prop := ∀ i : Instr, decode (encode i) = .ok i

/-- 30_encoding.md sections 3 to 7: a word that decodes is the encoding of the command it decodes to, so no two words
are one command. -/
def Obligations.EncodeOfDecode : Prop := ∀ (w : Word) (i : Instr), decode w = .ok i → encode i = w

/-- R42: a word is the command of a row exactly when `word AND mask = match`, its operands are the fields of the
format, and no word matches two rows. -/
def Obligations.CommandsAreTheRowsOfTheTable : Prop :=
  (∀ w : Word,
    (decode w = .ok .nop ↔ w &&& 0xFFFFFFFF = 0x00000000) ∧
    (decode w = .ok .clr ↔ w &&& 0xFFFFFFFF = 0x10000000) ∧
    (decode w = .ok (.push (w.extractLsb' 0 8)) ↔ w &&& 0xFFFFFF00 = 0x20000000) ∧
    (decode w = .ok (.pad (w.extractLsb' 0 8)) ↔ w &&& 0xFFFFFF00 = 0x30000000) ∧
    (decode w = .ok (.rdu (w.extractLsb' 0 16) (w.extractLsb' 22 6)) ↔ w &&& 0xF03F0000 = 0x40000000) ∧
    (decode w = .ok (.rds (w.extractLsb' 0 16) (w.extractLsb' 22 6)) ↔ w &&& 0xF03F0000 = 0x50000000) ∧
    (decode w = .ok .stat ↔ w &&& 0xFFFFFFFF = 0x60000000) ∧
    ((∃ i, decode w = .ok i) ↔ legalWord w = true)) ∧
  ∀ w : Word, ∀ r ∈ opcodeRows, ∀ r' ∈ opcodeRows,
    w &&& r.mask = r.value → w &&& r'.mask = r'.value → r = r'

/-- R45: which words are illegal, and that each of them answers `ILL` with data 0 and changes nothing. -/
def Obligations.IllegalWordsAnswerIllAndChangeNothing : Prop :=
  (∀ w : Word, (∃ why, decode w = .error why) ↔
    7 ≤ w.toNat / 2 ^ 28 ∨
    ((w.toNat / 2 ^ 28 = 0 ∨ w.toNat / 2 ^ 28 = 1 ∨ w.toNat / 2 ^ 28 = 6) ∧ w.toNat % 2 ^ 28 ≠ 0) ∨
    ((w.toNat / 2 ^ 28 = 2 ∨ w.toNat / 2 ^ 28 = 3) ∧ w.toNat / 2 ^ 8 % 2 ^ 20 ≠ 0) ∨
    ((w.toNat / 2 ^ 28 = 4 ∨ w.toNat / 2 ^ 28 = 5) ∧ w.toNat / 2 ^ 16 % 2 ^ 6 ≠ 0)) ∧
  ∀ (w : Word) (why : IllegalWord) (s : State), decode w = .error why →
    runWord w s = .next { s with responses := s.responses ++ [⟨.ill, 0⟩] }

/-- 30_encoding.md sections 3 and 4: words written out from the patterns decode to their commands. -/
def Obligations.WrittenOutWordsDecode : Prop :=
  decode 0b00000000000000000000000000000000#32 = .ok .nop ∧
  decode 0b00010000000000000000000000000000#32 = .ok .clr ∧
  decode 0b00100000000000000000000000110101#32 = .ok (.push 0x35) ∧
  decode 0b00110000000000000000000000110010#32 = .ok (.pad 0x32) ∧
  decode 0b01000111100000000000000000001000#32 = .ok (.rdu 8 30) ∧
  decode 0b01011111110000001111111111111110#32 = .ok (.rds 65534 63) ∧
  decode 0b01100000000000000000000000000000#32 = .ok .stat

/-- 30_encoding.md section 8 (the tables of R49): the words of the assembler's lines with operands in range, the
pseudo-commands expanded. -/
def Obligations.AssemblerLinesGiveTheirWords : Prop :=
  (∀ (s : List Nat) (c : Nat), (∀ x ∈ s, x < 256) → c < 256 →
    assembleLine (.push c) = some [BitVec.ofNat 32 (0x20000000 + c)] ∧
    assembleLine (.pad c) = some [BitVec.ofNat 32 (0x30000000 + c)] ∧
    assembleLine (.pushs s) = some (s.map fun x => BitVec.ofNat 32 (0x20000000 + x)) ∧
    assembleLine (.field s c) =
      some (s.map (fun x => BitVec.ofNat 32 (0x20000000 + x)) ++ [BitVec.ofNat 32 (0x30000000 + c)]) ∧
    assembleLine (.fieldEmptyPad s) =
      some (s.map (fun x => BitVec.ofNat 32 (0x20000000 + x)) ++ [0x30000000])) ∧
  (∀ off n : Nat, off < 65536 → n < 64 →
    assembleLine (.rdu off n) = some [BitVec.ofNat 32 (0x40000000 + n * 2 ^ 22 + off)] ∧
    assembleLine (.rds off n) = some [BitVec.ofNat 32 (0x50000000 + n * 2 ^ 22 + off)] ∧
    assembleLine (.rd6 off) = some [BitVec.ofNat 32 (0x40000000 + 6 * 2 ^ 22 + off)]) ∧
  assembleLine .nop = some [0x00000000] ∧ assembleLine .clr = some [0x10000000] ∧
  assembleLine .stat = some [0x60000000] ∧ assembleLine .len = some [0x60000000]

/-! ### The step -/

/-- A step runs the decoded command: of the next event, and of the command in flight. The queue of events is the
model's own (log 2); 30_encoding.md section 1. -/
def Obligations.StepRunsTheDecodedCommand : Prop :=
  (∀ (s : State) (w : Word) (rest : List Event) (i : Instr),
    s.port = .idle → s.events = .command w :: rest → decode w = .ok i →
    step s = exec i { s with events := rest }) ∧
  (∀ (s : State) (w : Word) (i : Instr), s.port = .busy w ∨ s.port = .responding w → decode w = .ok i →
    step s = exec i { s with port := .idle }) ∧
  ∀ (s : State) (w : Nat) (i : Instr), decode (BitVec.ofNat 32 w) = .ok i →
    step (s.withFetchWord 32 w) = exec i { s with port := .idle }

/-- A step with nothing in flight and no event leaves the state as it is: the model's own reading (log 4). An event
that is no command word, or a word that is none of the seven commands, is taken as R110 and R45 say, from the queue of
events, which is the model's own (log 2). -/
def Obligations.StepOfOtherEvents : Prop :=
  (∀ s : State, s.port = .idle → s.events = [] → step s = .next s) ∧
  (∀ (s : State) (rest : List Event), s.port = .idle → s.events = .reset :: rest →
    step s = .next { s with buf := [], len := 0, abort := false, events := rest }) ∧
  ∀ (s : State) (w : Word) (why : IllegalWord) (rest : List Event),
    s.port = .idle → s.events = .command w :: rest → decode w = .error why →
    step s = .next { s with events := rest, responses := s.responses ++ [⟨.ill, 0⟩] }

/-- 70_reset_and_hazards.md section 4 ("ARMOR6 never halts"): every state has a next state. -/
def Obligations.TheBlockNeverHalts : Prop := ∀ s : State, ∃ t : State, step s = .next t

/-- 10_state.md section 2 (`len` is at most `CAP_BITS`), with the canonical form of the model's memory (log 3): the
invariant is kept by every step and by every clock edge, from every state that has it. -/
def Obligations.EveryStepKeepsTheInvariant : Prop :=
  (∀ s t : State, s.inv → step s = .next t → t.inv) ∧
  ∀ (e : Edge) (s t : State), s.inv → clockEdge e s = .next t → t.inv

/-- The reset state, of the capacity the model gives it (log 1), has the invariant (log 3). -/
def Obligations.ResetHasTheInvariant : Prop := State.reset.inv

/-- R19: every piece of state after reset. -/
def Obligations.ResetValues : Prop :=
  State.reset.len = 0 ∧ State.reset.abort = false ∧ (∀ i, State.reset.buf.bitAt i = false) ∧
  State.reset.port = .idle ∧
  exec .stat State.reset = .next { State.reset with responses := [⟨.ok, 0x00000000⟩] } ∧
  ∀ s t : State, takeEvent .reset s = .next t →
    t.len = 0 ∧ t.abort = false ∧ (∀ i, t.buf.bitAt i = false) ∧ t.port = .idle ∧ t.responses = s.responses

/-- 10_state.md section 4 and 00_scope.md section 4 (log 1): the capacity is fixed when the block is built: no step
and no clock edge writes it. -/
def Obligations.NothingWritesTheCapacity : Prop :=
  (∀ s t : State, step s = .next t → t.cfg = s.cfg) ∧
  ∀ (e : Edge) (s t : State), clockEdge e s = .next t → t.cfg = s.cfg

/-- 70_reset_and_hazards.md section 1, the spec's own inference: reset and `CLR` leave the same architectural state.
-/
def Obligations.ResetAndClrAgree : Prop :=
  ∀ s t u : State, takeEvent .reset s = .next t → exec .clr s = .next u →
    t.buf = u.buf ∧ t.len = u.len ∧ t.abort = u.abort

/-- 20_memory.md section 6, over the model's own queue of events (log 2): running the queue step by step is the fold
of the events' rules over the list. -/
def Obligations.RunningTheQueueIsTheFold : Prop :=
  ∀ (es : List Event) (s : State), s.port = .idle → s.events = es →
    core.run es.length s = runEvents es { s with events := [] }

/-- 10_state.md section 6 ("No command can observe them"), the observation of 70_reset_and_hazards.md section 4: the
cells at or above `len` are never observed: two states that differ at most there show the same run of events, at every
length. -/
def Obligations.CellsAboveLenAreNeverObserved : Prop :=
  ∀ (es : List Event) (s t : State), SameContent s t →
    ∃ s' t' : State, runEvents es s = .next s' ∧ runEvents es t = .next t' ∧ SameContent s' t' ∧
      s'.observe = t'.observe

/-! ### Fields and sequences -/

/-- 41_armor_append.md, "Properties of whole sentences and sequences", the spec's own inference: one whole payload
field and its pad field. -/
def Obligations.OneWholeField : Prop :=
  ∀ (s : State) (cs : List Byte) (d : Byte),
    s.abort = false → (∀ c ∈ cs, inAlphabet c = true) → s.len.toNat + 6 * cs.length ≤ s.cfg.capBits →
    padCount d ≤ s.len.toNat + 6 * cs.length →
    ∃ t : State, runCommands (fieldCommands cs d) s = .next t ∧
      t.abort = false ∧ t.len.toNat = s.len.toNat + 6 * cs.length - padCount d ∧
      (∀ i, i < s.len.toNat → t.buf.bitAt i = s.buf.bitAt i) ∧
      (∀ (j : Nat) (c : Byte) (k : Nat), cs[j]? = some c → k < 6 →
        t.buf.bitAt (s.len.toNat + 6 * j + k) = (armorNumber c).testBit (5 - k)) ∧
      t.responses = s.responses ++ cs.map (fun c => ⟨.ok, BitVec.ofNat 32 (armorNumber c)⟩) ++
        [⟨.ok, BitVec.ofNat 32 t.len.toNat⟩]

/-- 41_armor_append.md, "Properties of whole sentences and sequences", the spec's own inference: `CLR` and the fields
of a sequence leave the concatenation of the fragments' bits, whatever stood before. -/
def Obligations.SequenceYieldsTheFragmentsBits : Prop :=
  ∀ (s : State) (fs : List Fragment), fragmentsFit s.cfg.capBits 0 fs = true →
    ∃ t : State, runCommands (sequenceCommands fs) s = .next t ∧
      t.content = sequenceBits fs ∧ t.abort = false ∧ ∀ r ∈ t.responses.drop s.responses.length, r.status = .ok

/-- 41_armor_append.md, corner cases of PUSH, the spec's own inference, at every capacity: how many characters fit
from empty, and what holds after any number of them. -/
def Obligations.CharactersUpToTheCapacityFit : Prop :=
  ∀ (s : State) (cs : List Byte), s.abort = false → s.len = 0 → (∀ c ∈ cs, inAlphabet c = true) →
    ∃ t : State, runCommands (cs.map Instr.push) s = .next t ∧
      t.len.toNat = 6 * min cs.length (s.cfg.capBits / 6) ∧
      (t.abort = true ↔ s.cfg.capBits / 6 < cs.length)

/-! ### The ports -/

/-- 30_encoding.md section 1, 70_reset_and_hazards.md sections 1 and 5, in the model's clock-edge layer, where a
command's effect comes at the edge that ends its response cycle (log 5, the model's choice): a run of clock edges,
whatever the latencies, is the run of the transactions it completes; a command cut off by reset is not among them. -/
def Obligations.ClockedRunIsTheTransactionRun : Prop :=
  ∀ (es : List Edge) (s : State), ∃ u : State,
    runEvents (completedEvents es s.port) { s with port := .idle } = .next u ∧
    runEdges es s = .next { u with port := portAfter es s.port }

/-- 30_encoding.md section 1 ("responses come in command order, one per command"), in the clock-edge layer (log 5):
without reset no accepted command is lost, doubled or reordered: the completed commands and the one in flight are the
accepted words in order. -/
def Obligations.AcceptedCommandsCompleteInOrder : Prop :=
  ∀ es : List Edge, (∀ e ∈ es, e.rst = false) →
    completedEvents es .idle ++ ((portAfter es .idle).inFlight.map Event.command) =
      (acceptedWords es .idle).map Event.command

/-- 70_reset_and_hazards.md section 5 (the liveness fact): an accepted command responds, at once or after any finite
wait. That its rule takes effect at the edge that ends its response cycle is the model's choice (log 5, DESIGN
CHOICE). -/
def Obligations.AcceptedCommandsRespond : Prop :=
  ∀ (wait : List Edge) (a f d : Edge) (s : State),
    s.port = .idle → a.rst = false → a.cmdValid = true → d.rst = false →
    (∀ e ∈ wait, e.rst = false ∧ e.finish = false) → f.rst = false → f.finish = true →
    (a.finish = true → runEdges [a] s = .next { s with port := .responding a.cmd }) ∧
    (a.finish = false → runEdges (a :: wait ++ [f]) s = .next { s with port := .responding a.cmd }) ∧
    ∃ t : State, clockEdge d { s with port := .responding a.cmd } = .next t ∧ runWord a.cmd s = .next t

/-- 30_encoding.md section 1 (log 5): the outputs in each phase of the handshake, and that the response on the port is
the one the driver samples. -/
def Obligations.OutputsInEachPhase : Prop :=
  ∀ s : State,
    (s.port = .idle → portOut false s = ⟨true, false, none, none⟩) ∧
    (∀ w, s.port = .busy w → portOut false s = ⟨false, false, none, none⟩) ∧
    (∀ w, s.port = .responding w → ∃ (r : Response) (t : State),
      portOut false s = ⟨false, true, some r.status.code, some r.data⟩ ∧
      (∀ e : Edge, e.rst = false → clockEdge e s = .next t) ∧ t.responses = s.responses ++ [r] ∧ t.port = .idle)

/-- 70_reset_and_hazards.md section 1 (R110, R111): at an edge with `rst` = 1 the state becomes the reset state,
whatever it was and whatever is on the command port; a command in flight gets no response; `cmd_ready` and `rsp_valid`
are 0. That this holds too at the edge of the response cycle is the model's inference (log 5, DEDUCED). -/
def Obligations.ResetEdgeDropsTheCommandInFlight : Prop :=
  ∀ (e : Edge) (s : State), e.rst = true →
    (∃ t : State, clockEdge e s = .next t ∧ t.len = 0 ∧ t.abort = false ∧ (∀ i, t.buf.bitAt i = false) ∧
      t.port = .idle ∧ cmdReady false t.port = true ∧ t.responses = s.responses ∧ t.cfg = s.cfg ∧
      t.events = s.events) ∧
    portOut true s = ⟨false, false, none, none⟩ ∧ acceptedWords [e] s.port = []

/-- 70_reset_and_hazards.md section 3 (commands held stable): a driver that holds its command stable has the word it
offered accepted, and not another. -/
def Obligations.AHeldCommandIsTheOneAccepted : Prop :=
  ∀ (e : Edge) (es : List Edge) (p : Port), heldStable (e :: es) p = true → e.cmdValid = true →
    acceptedWords (e :: es) p = [] ∨ (acceptedWords (e :: es) p).head? = some e.cmd

/-! ### The driver and the instances -/

/-- 70_reset_and_hazards.md section 3, in the model's form of the driver's duties (log 6): along every run that keeps
the driver's duties, `abort` is 1 exactly inside a sentence that has failed, so no sentence begins aborted. -/
def Obligations.DrivenRunsBeginNoSentenceAborted : Prop :=
  ∀ (is : List Instr) (s t : State) (ph : DriverPhase), s.abort = false →
    runDriver is (.fresh, s) = some (ph, t) → driverAgrees ph t

/-- 60_exceptions.md section 9, on two copies: the instances share nothing: events interleaved in any order leave each
instance as its own events alone do. -/
def Obligations.InstancesAreIndependent : Prop :=
  ∀ (es : List (Channel × Event)) (p : Instances), ∃ q : Instances, runChannels es p = .next q ∧
    ∀ c : Channel, runEvents (eventsOf c es) (p.at c) = .next (q.at c)
end

