-- ==== Sys2Proof/Laws/Decode.lean ====
section
/-! SUPPORT. The fields of a word as numbers, and the number of an encoded command. -/

namespace Sys2Proof

theorem slice_toNat (w : Word) (lo width : Nat) : (slice w lo width).toNat = w.toNat / 2 ^ lo % 2 ^ width := by
  rw [slice, BitVec.extractLsb'_toNat, Nat.shiftRight_eq_div_pow]

@[simp] theorem encode_push_toNat (ch : Byte) : (encode (.push ch)).toNat = 0x20000000 + ch.toNat := by
  simp only [encode, BitVec.toNat_ofNat]; omega

@[simp] theorem encode_pad_toNat (ch : Byte) : (encode (.pad ch)).toNat = 0x30000000 + ch.toNat := by
  simp only [encode, BitVec.toNat_ofNat]; omega

@[simp] theorem encode_rdu_toNat (off : BitCount) (n : FieldWidth) :
    (encode (.rdu off n)).toNat = 0x40000000 + n.toNat * 2 ^ 22 + off.toNat := by
  simp only [encode, BitVec.toNat_ofNat]; omega

@[simp] theorem encode_rds_toNat (off : BitCount) (n : FieldWidth) :
    (encode (.rds off n)).toNat = 0x50000000 + n.toNat * 2 ^ 22 + off.toNat := by
  simp only [encode, BitVec.toNat_ofNat]; omega

/-- A word masked is `v` when its bits agree with `v` where the mask has a 1 and `v` is 0 elsewhere. -/
theorem masked_eq (w mask v : Word)
    (h : ∀ i, i < 32 → (decide (w.toNat / 2 ^ i % 2 = 1) && mask.getLsbD i) = v.getLsbD i) : w &&& mask = v := by
  refine BitVec.eq_of_getLsbD_eq fun i hi => ?_
  rw [BitVec.getLsbD_and, ← h i hi, BitVec.getLsbD, Nat.testBit_eq_decide_div_mod_eq]

end Sys2Proof
end

