-- ==== Sys2Proof/Laws/Memory.lean ====
section
/-! SUPPORT. The laws of the bit buffer: reading after a write, the canonical form, the bytes that exist. The reading
laws hold of every list, canonical or not. -/

namespace Sys2Proof.Machine

@[simp] theorem byteAt_nil (j : Nat) : Memory.byteAt [] j = 0 := rfl

theorem byteAt_remove (m : Memory) (j k : Nat) :
    (m.remove j).byteAt k = if k = j then 0 else m.byteAt k := by
  induction m with
  | nil => simp [Memory.remove]
  | cons c m ih =>
    simp only [Memory.remove, List.filter_cons] at ih ⊢
    by_cases hc : c.1 = j
    · by_cases hk : k = j
      · simp_all
      · simp_all [Memory.byteAt, eq_comm]
    · by_cases hk : c.1 = k
      · simp_all [Memory.byteAt]
      · simp_all [Memory.byteAt]

theorem byteAt_insert (m : Memory) (c : Host.Cell) (k : Nat) (h : ∀ d ∈ m, d.1 ≠ c.1) :
    (Memory.insert c m).byteAt k = if k = c.1 then c.2 else m.byteAt k := by
  induction m with
  | nil => simp [Memory.insert, Memory.byteAt, eq_comm]
  | cons d m ih =>
    have hd := h d (by simp)
    have hm : ∀ e ∈ m, e.1 ≠ c.1 := fun e he => h e (by simp [he])
    unfold Memory.insert
    split
    · simp [Memory.byteAt, eq_comm]
    · by_cases hk : k = c.1
      · subst hk; simp [Memory.byteAt, ih hm, hd]
      · simp [Memory.byteAt, ih hm, hk]

theorem remove_ne (m : Memory) (j : Nat) : ∀ d ∈ m.remove j, d.1 ≠ j := by
  simp [Memory.remove]

theorem byteAt_setByte (m : Memory) (j k : Nat) (b : Byte) :
    (m.setByte j b).byteAt k = if k = j then b else m.byteAt k := by
  unfold Memory.setByte
  split
  · next h => simp [byteAt_remove, h]
  · rw [byteAt_insert _ _ _ (remove_ne m j), byteAt_remove]
    split <;> simp_all

theorem mem_insert (m : Memory) (c d : Host.Cell) : d ∈ Memory.insert c m ↔ d = c ∨ d ∈ m := by
  induction m with
  | nil => simp [Memory.insert]
  | cons e m ih =>
    unfold Memory.insert
    split
    · simp
    · simp [ih]; tauto

theorem insert_sorted (m : Memory) (c : Host.Cell) (hm : m.Pairwise fun c d => c.1 < d.1)
    (h : ∀ d ∈ m, d.1 ≠ c.1) : (Memory.insert c m).Pairwise fun c d => c.1 < d.1 := by
  induction m with
  | nil => simp [Memory.insert]
  | cons e m ih =>
    have he := h e (by simp)
    rw [List.pairwise_cons] at hm
    unfold Memory.insert
    split
    · next hlt =>
      refine List.pairwise_cons.2 ⟨?_, List.pairwise_cons.2 hm⟩
      intro d hd
      rcases List.mem_cons.1 hd with rfl | hd
      · exact hlt
      · exact lt_trans hlt (hm.1 d hd)
    · next hlt =>
      refine List.pairwise_cons.2 ⟨?_, ih hm.2 fun d hd => h d (by simp [hd])⟩
      intro d hd
      rcases (mem_insert m c d).1 hd with rfl | hd
      · omega
      · exact hm.1 d hd

theorem mem_setByte (m : Memory) (j : Nat) (b : Byte) (d : Host.Cell) (h : d ∈ m.setByte j b) :
    d = (j, b) ∧ b ≠ 0 ∨ d ∈ m := by
  unfold Memory.setByte at h
  split at h
  · right; simp only [Memory.remove, List.mem_filter] at h; exact h.1
  · next hb =>
    rcases (mem_insert _ _ _).1 h with rfl | h
    · exact .inl ⟨rfl, hb⟩
    · right; simp only [Memory.remove, List.mem_filter] at h; exact h.1

theorem setByte_wf (m : Memory) (j : Nat) (b : Byte) (h : m.wf) : (m.setByte j b).wf := by
  refine ⟨?_, fun d hd => ?_⟩
  · unfold Memory.setByte
    split
    · exact h.1.filter _
    · exact insert_sorted _ _ (h.1.filter _) (remove_ne m j)
  · rcases mem_setByte m j b d hd with ⟨rfl, hb⟩ | hd
    · exact hb
    · exact h.2 d hd

/-! ### Bits -/

theorem getLsbD_putBit (x : Byte) (k j : Nat) (b : Bool) (hj : j < 8) :
    (putBit x k b).getLsbD j = if j = k then b else x.getLsbD j := by
  unfold putBit
  have h1 : ((1 : Byte) <<< k).getLsbD j = decide (j = k) := by
    rw [BitVec.getLsbD_shiftLeft]
    by_cases h : j = k
    · subst h; simp [hj]
    · by_cases h2 : j < k
      · simp [h2, h]
      · have : j - k ≠ 0 := by omega
        simp [h, this, BitVec.getLsbD_one]
  cases b
  · rw [if_neg (by simp), BitVec.getLsbD_and, BitVec.getLsbD_not, h1]
    by_cases h : j = k <;> simp [h]
    intro _
    exact hj
  · rw [if_pos rfl, BitVec.getLsbD_or, h1]
    by_cases h : j = k <;> simp [h]

@[simp] theorem bitAt_nil (i : Nat) : Memory.bitAt [] i = false := by simp [Memory.bitAt]

theorem bitAt_setBit (m : Memory) (i j : Nat) (b : Bool) :
    (m.setBit i b).bitAt j = if j = i then b else m.bitAt j := by
  unfold Memory.setBit Memory.bitAt
  rw [byteAt_setByte]
  by_cases h : j / 8 = i / 8
  · rw [if_pos h, getLsbD_putBit _ _ _ _ (by omega), h]
    by_cases hm : j = i
    · simp [hm]
    · rw [if_neg (by omega), if_neg hm]
  · rw [if_neg h, if_neg (by omega : ¬ j = i)]

theorem setBit_wf (m : Memory) (i : Nat) (b : Bool) (h : m.wf) : (m.setBit i b).wf := setByte_wf _ _ _ h

theorem setBit_bound (m : Memory) (i : Nat) (b : Bool) (bytes : Nat) (h : ∀ c ∈ m, c.1 < bytes)
    (hi : i < 8 * bytes) : ∀ c ∈ m.setBit i b, c.1 < bytes := by
  intro c hc
  rcases mem_setByte _ _ _ _ hc with ⟨rfl, -⟩ | hc
  · show i / 8 < bytes; omega
  · exact h c hc

/-! ### MemWrite -/

theorem bitAt_writeFirst {n : Nat} (m : Memory) (off : Nat) (v : BitVec n) (count i : Nat) :
    (m.writeFirst off v count).bitAt i =
      if off ≤ i ∧ i < off + count then v.getLsbD (n - 1 - (i - off)) else m.bitAt i := by
  induction count with
  | zero => rw [if_neg (by omega)]; rfl
  | succ k ih =>
    rw [Memory.writeFirst, bitAt_setBit, ih]
    by_cases h : i = off + k
    · subst h; simp
    · by_cases h2 : off ≤ i ∧ i < off + k
      · rw [if_neg h, if_pos h2, if_pos (by omega)]
      · rw [if_neg h, if_neg h2, if_neg (by omega)]

/-- `MemWrite` stores each bit and leaves every other bit alone (20_memory.md R23). -/
theorem bitAt_write {n : Nat} (m : Memory) (off : Nat) (v : BitVec n) (i : Nat) :
    (m.write off v).bitAt i =
      if off ≤ i ∧ i < off + n then v.getLsbD (n - 1 - (i - off)) else m.bitAt i :=
  bitAt_writeFirst m off v n i

theorem writeFirst_wf {n : Nat} (m : Memory) (off : Nat) (v : BitVec n) (count : Nat) (h : m.wf) :
    (m.writeFirst off v count).wf := by
  induction count with
  | zero => exact h
  | succ k ih => exact setBit_wf _ _ _ ih

theorem write_wf {n : Nat} (m : Memory) (off : Nat) (v : BitVec n) (h : m.wf) : (m.write off v).wf :=
  writeFirst_wf m off v n h

theorem writeFirst_bound {n : Nat} (m : Memory) (off : Nat) (v : BitVec n) (count bytes : Nat)
    (h : ∀ c ∈ m, c.1 < bytes) (hi : off + count ≤ 8 * bytes) :
    ∀ c ∈ m.writeFirst off v count, c.1 < bytes := by
  induction count with
  | zero => exact h
  | succ k ih => exact setBit_bound _ _ _ _ (ih (by omega)) (by omega)

theorem write_bound {n : Nat} (m : Memory) (off : Nat) (v : BitVec n) (bytes : Nat)
    (h : ∀ c ∈ m, c.1 < bytes) (hi : off + n ≤ 8 * bytes) : ∀ c ∈ m.write off v, c.1 < bytes :=
  writeFirst_bound m off v n bytes h hi

/-! ### MemRead -/

theorem read_congr (m m' : Memory) (off n : Nat) (h : ∀ k, k < n → m.bitAt (off + k) = m'.bitAt (off + k)) :
    m.read off n = m'.read off n := by
  induction n with
  | zero => rfl
  | succ n ih => rw [Memory.read, Memory.read, ih fun k hk => h k (by omega), h n (by omega)]

theorem read_lt (m : Memory) (off n : Nat) : m.read off n < 2 ^ n := by
  induction n with
  | zero => simp [Memory.read]
  | succ n ih =>
    have : (m.bitAt (off + n)).toNat ≤ 1 := Bool.toNat_le _
    rw [Memory.read, pow_succ]
    omega

/-- Bit `k` of a field read is the cell `k` places before its end. -/
theorem read_testBit (m : Memory) (off n k : Nat) :
    (m.read off n).testBit k = (decide (k < n) && m.bitAt (off + (n - 1 - k))) := by
  induction n generalizing k with
  | zero => simp [Memory.read]
  | succ n ih =>
    rw [Memory.read]
    cases k with
    | zero => cases h : m.bitAt (off + n) <;> simp [Nat.testBit_zero, h]
    | succ k =>
      have hb : (m.bitAt (off + n)).toNat ≤ 1 := Bool.toNat_le _
      rw [Nat.testBit_succ, show (2 * m.read off n + (m.bitAt (off + n)).toNat) / 2 = m.read off n by omega, ih]
      by_cases hk : k < n
      · simp only [hk, Nat.add_lt_add_iff_right, decide_true, Bool.true_and]
        congr 2
        omega
      · simp [hk]

/-! ### The empty memory -/

/-- The cleared buffer is canonical. -/
theorem empty_wf : Memory.wf [] := ⟨List.Pairwise.nil, by simp⟩

/-- The memory of the reset state is canonical. -/
theorem reset_buf_wf : State.reset.buf.wf := empty_wf

end Sys2Proof.Machine
end

