-- ==== Sys2Proof/Laws/State.lean ====
section
/-! SUPPORT. What each update of the state leaves in each field. -/

namespace Sys2Proof.Machine

section respond
variable (st : Status) (d : Word) (s : State)
@[simp] theorem respond_cfg : (respond st d s).cfg = s.cfg := rfl
@[simp] theorem respond_buf : (respond st d s).buf = s.buf := rfl
@[simp] theorem respond_len : (respond st d s).len = s.len := rfl
@[simp] theorem respond_abort : (respond st d s).abort = s.abort := rfl
@[simp] theorem respond_port : (respond st d s).port = s.port := rfl
@[simp] theorem respond_events : (respond st d s).events = s.events := rfl
@[simp] theorem respond_responses : (respond st d s).responses = s.responses ++ [⟨st, d⟩] := rfl
end respond

section raiseFault
variable (c : Cause) (s : State)
@[simp] theorem raiseFault_cfg : (raiseFault c s).cfg = s.cfg := rfl
@[simp] theorem raiseFault_buf : (raiseFault c s).buf = s.buf := rfl
@[simp] theorem raiseFault_len : (raiseFault c s).len = s.len := rfl
@[simp] theorem raiseFault_abort : (raiseFault c s).abort = c.abortAfter s.abort := rfl
@[simp] theorem raiseFault_port : (raiseFault c s).port = s.port := rfl
@[simp] theorem raiseFault_events : (raiseFault c s).events = s.events := rfl
@[simp] theorem raiseFault_responses : (raiseFault c s).responses = s.responses ++ [⟨c.status, 0⟩] := rfl
end raiseFault

section clearAccumulator
variable (s : State)
@[simp] theorem clearAccumulator_cfg : (clearAccumulator s).cfg = s.cfg := rfl
@[simp] theorem clearAccumulator_buf : (clearAccumulator s).buf = [] := rfl
@[simp] theorem clearAccumulator_len : (clearAccumulator s).len = 0 := rfl
@[simp] theorem clearAccumulator_abort : (clearAccumulator s).abort = false := rfl
@[simp] theorem clearAccumulator_port : (clearAccumulator s).port = s.port := rfl
@[simp] theorem clearAccumulator_events : (clearAccumulator s).events = s.events := rfl
@[simp] theorem clearAccumulator_responses : (clearAccumulator s).responses = s.responses := rfl
@[simp] theorem resetBlock_cfg : (resetBlock s).cfg = s.cfg := rfl
@[simp] theorem resetBlock_buf : (resetBlock s).buf = [] := rfl
@[simp] theorem resetBlock_len : (resetBlock s).len = 0 := rfl
@[simp] theorem resetBlock_abort : (resetBlock s).abort = false := rfl
@[simp] theorem resetBlock_port : (resetBlock s).port = .idle := rfl
@[simp] theorem resetBlock_events : (resetBlock s).events = s.events := rfl
@[simp] theorem resetBlock_responses : (resetBlock s).responses = s.responses := rfl
end clearAccumulator

section appendSextet
variable (v : Sextet) (s : State)
@[simp] theorem appendSextet_cfg : (appendSextet v s).cfg = s.cfg := rfl
@[simp] theorem appendSextet_buf : (appendSextet v s).buf = s.buf.write s.len.toNat v := rfl
@[simp] theorem appendSextet_len : (appendSextet v s).len = BitVec.ofNat 16 (s.len.toNat + 6) := rfl
@[simp] theorem appendSextet_abort : (appendSextet v s).abort = s.abort := rfl
@[simp] theorem appendSextet_port : (appendSextet v s).port = s.port := rfl
@[simp] theorem appendSextet_events : (appendSextet v s).events = s.events := rfl
@[simp] theorem appendSextet_responses : (appendSextet v s).responses = s.responses := rfl
end appendSextet

section cutBits
variable (p : Nat) (s : State)
@[simp] theorem cutBits_cfg : (cutBits p s).cfg = s.cfg := rfl
@[simp] theorem cutBits_buf : (cutBits p s).buf = s.buf := rfl
@[simp] theorem cutBits_len : (cutBits p s).len = BitVec.ofNat 16 (s.len.toNat - p) := rfl
@[simp] theorem cutBits_abort : (cutBits p s).abort = s.abort := rfl
@[simp] theorem cutBits_port : (cutBits p s).port = s.port := rfl
@[simp] theorem cutBits_events : (cutBits p s).events = s.events := rfl
@[simp] theorem cutBits_responses : (cutBits p s).responses = s.responses := rfl
end cutBits

section instances
variable (p : Instances) (s : State)
@[simp] theorem put_a_at_a : (p.put .a s).at .a = s := rfl
@[simp] theorem put_a_at_b : (p.put .a s).at .b = p.at .b := rfl
@[simp] theorem put_b_at_a : (p.put .b s).at .a = p.at .a := rfl
@[simp] theorem put_b_at_b : (p.put .b s).at .b = s := rfl
end instances

/-- Every build is a legal capacity (00_scope.md R6). -/
theorem capBits_bounds (c : Config) : 8 ≤ c.capBits ∧ c.capBits ≤ 32768 ∧ c.capBits % 8 = 0 := by
  have := c.lastByte.isLt
  unfold Config.capBits Config.capBytes
  omega

/-- The sum of a `PUSH` that fits does not wrap (41_armor_append.md R76). -/
theorem appendSextet_len_toNat (v : Sextet) (s : State) (h : s.len.toNat + 6 ≤ s.cfg.capBits) :
    (appendSextet v s).len.toNat = s.len.toNat + 6 := by
  have := capBits_bounds s.cfg
  simp [BitVec.toNat_ofNat]
  omega

/-- The difference of a `PAD` that cuts does not wrap (41_armor_append.md R76). -/
theorem cutBits_len_toNat (p : Nat) (s : State) : (cutBits p s).len.toNat = s.len.toNat - p := by
  have := s.len.isLt
  simp [BitVec.toNat_ofNat]
  omega

end Sys2Proof.Machine
end

