-- ==== Sys2Proof/Laws/Exec.lean ====
section
/-! SUPPORT. What each meaning can do, said once; later proofs cite these and do not unfold the meanings. -/

namespace Sys2Proof.Machine

/-- The four outcomes of `PUSH`, in the order of its tests (41_armor_append.md R70). -/
theorem execPush_cases {ch : Byte} {s t : State} (h : execPush ch s = .next t) :
    (s.abort = true ∧ t = raiseFault .abortedPush s) ∨
    (s.abort = false ∧ inAlphabet ch = false ∧ t = raiseFault .badChar s) ∨
    (s.abort = false ∧ inAlphabet ch = true ∧ s.cfg.capBits < s.len.toNat + 6 ∧ t = raiseFault .ovf s) ∨
    (s.abort = false ∧ inAlphabet ch = true ∧ s.len.toNat + 6 ≤ s.cfg.capBits ∧
      t = respond .ok ((armor ch).setWidth 32) (appendSextet (armor ch) s)) := by
  unfold execPush at h
  split at h
  · next ha => cases h; exact .inl ⟨ha, rfl⟩
  · next ha =>
    have ha : s.abort = false := by simpa using ha
    split at h
    · next hc => cases h; exact .inr (.inl ⟨ha, by simpa using hc, rfl⟩)
    · next hc =>
      have hc : inAlphabet ch = true := by simpa using hc
      split at h
      · next hl => cases h; exact .inr (.inr (.inl ⟨ha, hc, hl, rfl⟩))
      · next hl => cases h; exact .inr (.inr (.inr ⟨ha, hc, by simpa using hl, rfl⟩))

/-- The four outcomes of `PAD`, in the order of its tests (41_armor_append.md R73). -/
theorem execPad_cases {ch : Byte} {s t : State} (h : execPad ch s = .next t) :
    (s.abort = true ∧ t = raiseFault .abortedPad s) ∨
    (s.abort = false ∧ padDigit ch = none ∧ t = respond .ok (s.len.setWidth 32) s) ∨
    (∃ p, s.abort = false ∧ padDigit ch = some p ∧ s.len.toNat < p ∧ t = raiseFault .rng s) ∨
    (∃ p, s.abort = false ∧ padDigit ch = some p ∧ p ≤ s.len.toNat ∧
      t = respond .ok ((cutBits p s).len.setWidth 32) (cutBits p s)) := by
  unfold execPad at h
  split at h
  · next ha => cases h; exact .inl ⟨ha, rfl⟩
  · next ha =>
    have ha : s.abort = false := by simpa using ha
    split at h
    · next hp => cases h; exact .inr (.inl ⟨ha, hp, rfl⟩)
    · next p hp =>
      split at h
      · next hl => cases h; exact .inr (.inr (.inl ⟨p, ha, hp, hl, rfl⟩))
      · next hl => cases h; exact .inr (.inr (.inr ⟨p, ha, hp, by simpa using hl, rfl⟩))

/-- The two outcomes of `RDU` (42_bitfield_read.md R80, R82). -/
theorem execRdu_cases {off : BitCount} {n : FieldWidth} {s t : State} (h : execRdu off n s = .next t) :
    (readValid s off n = true ∧ t = respond .ok (unsignedData (s.buf.read off.toNat n.toNat)) s) ∨
    (readValid s off n = false ∧ t = raiseFault .rng s) := by
  unfold execRdu at h
  split at h
  · next hv => cases h; exact .inl ⟨hv, rfl⟩
  · next hv => cases h; exact .inr ⟨by simpa using hv, rfl⟩

/-- The two outcomes of `RDS` (42_bitfield_read.md R81, R82). -/
theorem execRds_cases {off : BitCount} {n : FieldWidth} {s t : State} (h : execRds off n s = .next t) :
    (readValid s off n = true ∧ t = respond .ok
      (signedData (s.buf.bitAt off.toNat) (s.buf.read off.toNat n.toNat) n.toNat) s) ∨
    (readValid s off n = false ∧ t = raiseFault .rng s) := by
  unfold execRds at h
  split at h
  · next hv => cases h; exact .inl ⟨hv, rfl⟩
  · next hv => cases h; exact .inr ⟨by simpa using hv, rfl⟩

/-- Every command ends in a fault, in a response that writes nothing else, or in one of the three writes. -/
theorem exec_cases {i : Instr} {s t : State} (h : exec i s = .next t) :
    (∃ c, t = raiseFault c s) ∨
    (∃ d, t = respond .ok d s) ∨
    (i = .clr ∧ t = respond .ok 0 (clearAccumulator s)) ∨
    (∃ ch, i = .push ch ∧ s.abort = false ∧ inAlphabet ch = true ∧ s.len.toNat + 6 ≤ s.cfg.capBits ∧
      t = respond .ok ((armor ch).setWidth 32) (appendSextet (armor ch) s)) ∨
    (∃ ch p, i = .pad ch ∧ s.abort = false ∧ padDigit ch = some p ∧ p ≤ s.len.toNat ∧
      t = respond .ok ((cutBits p s).len.setWidth 32) (cutBits p s)) := by
  cases i with
  | nop => cases h; exact .inr (.inl ⟨_, rfl⟩)
  | clr => cases h; exact .inr (.inr (.inl ⟨rfl, rfl⟩))
  | stat => cases h; exact .inr (.inl ⟨_, rfl⟩)
  | push ch =>
    rcases execPush_cases h with ⟨-, rfl⟩ | ⟨-, -, rfl⟩ | ⟨-, -, -, rfl⟩ | ⟨ha, hc, hl, rfl⟩
    · exact .inl ⟨_, rfl⟩
    · exact .inl ⟨_, rfl⟩
    · exact .inl ⟨_, rfl⟩
    · exact .inr (.inr (.inr (.inl ⟨ch, rfl, ha, hc, hl, rfl⟩)))
  | pad ch =>
    rcases execPad_cases h with ⟨-, rfl⟩ | ⟨-, -, rfl⟩ | ⟨p, -, -, -, rfl⟩ | ⟨p, ha, hp, hl, rfl⟩
    · exact .inl ⟨_, rfl⟩
    · exact .inr (.inl ⟨_, rfl⟩)
    · exact .inl ⟨_, rfl⟩
    · exact .inr (.inr (.inr (.inr ⟨ch, p, rfl, ha, hp, hl, rfl⟩)))
  | rdu off n =>
    rcases execRdu_cases h with ⟨-, rfl⟩ | ⟨-, rfl⟩
    · exact .inr (.inl ⟨_, rfl⟩)
    · exact .inl ⟨_, rfl⟩
  | rds off n =>
    rcases execRds_cases h with ⟨-, rfl⟩ | ⟨-, rfl⟩
    · exact .inr (.inl ⟨_, rfl⟩)
    · exact .inl ⟨_, rfl⟩

/-- Every command answers a next state. -/
theorem exec_completes (i : Instr) (s : State) : ∃ t, exec i s = .next t := by
  cases i with
  | nop => exact ⟨_, rfl⟩
  | clr => exact ⟨_, rfl⟩
  | stat => exact ⟨_, rfl⟩
  | push ch => simp only [exec, execPush]; split_ifs <;> exact ⟨_, rfl⟩
  | pad ch => simp only [exec, execPad]; split_ifs; exact ⟨_, rfl⟩; split; exact ⟨_, rfl⟩; split_ifs <;> exact ⟨_, rfl⟩
  | rdu off n => simp only [exec, execRdu]; split_ifs <;> exact ⟨_, rfl⟩
  | rds off n => simp only [exec, execRds]; split_ifs <;> exact ⟨_, rfl⟩

/-- A command writes none of the build, the port and the events to come. -/
theorem exec_frame {i : Instr} {s t : State} (h : exec i s = .next t) :
    t.cfg = s.cfg ∧ t.port = s.port ∧ t.events = s.events := by
  rcases exec_cases h with ⟨_, rfl⟩ | ⟨_, rfl⟩ | ⟨_, rfl⟩ | ⟨_, _, _, _, _, rfl⟩ | ⟨_, _, _, _, _, _, rfl⟩ <;>
    exact ⟨rfl, rfl, rfl⟩

/-- What a word does: the meaning of its command, or the fault `ILL`. -/
theorem runWord_cases {w : Word} {s t : State} (h : runWord w s = .next t) :
    (∃ i, decode w = .ok i ∧ exec i s = .next t) ∨ (∃ r, decode w = .error r ∧ t = raiseFault .ill s) := by
  unfold runWord at h
  split at h
  · next i hd => exact .inl ⟨i, hd, h⟩
  · next r hd => cases h; exact .inr ⟨r, hd, rfl⟩

/-- Every word answers a next state. -/
theorem runWord_completes (w : Word) (s : State) : ∃ t, runWord w s = .next t := by
  unfold runWord
  split
  · exact exec_completes _ _
  · exact ⟨_, rfl⟩

/-- Every event answers a next state. -/
theorem takeEvent_completes (e : Event) (s : State) : ∃ t, takeEvent e s = .next t := by
  cases e with
  | command w => exact runWord_completes w s
  | reset => exact ⟨_, rfl⟩

/-- The three cases of a step: it stays quiescent, finishes the command in flight, or takes the next event. -/
theorem step_cases {s t : State} (h : step s = .next t) :
    (s.port = .idle ∧ s.events = [] ∧ t = s) ∨
    (∃ w, (s.port = .busy w ∨ s.port = .responding w) ∧ runWord w { s with port := .idle } = .next t) ∨
    (∃ e rest, s.port = .idle ∧ s.events = e :: rest ∧ takeEvent e { s with events := rest } = .next t) := by
  unfold step transaction at h
  split at h
  · next w hp => exact .inr (.inl ⟨w, .inl hp, h⟩)
  · next w hp => exact .inr (.inl ⟨w, .inr hp, h⟩)
  · next hp =>
    split at h
    · next he => cases h; exact .inl ⟨hp, he, rfl⟩
    · next e rest he => exact .inr (.inr ⟨e, rest, hp, he, h⟩)

/-- A word does the same whatever the port and the events to come: it neither reads nor writes them. -/
theorem runWord_with {w : Word} {s t : State} (p : Port) (es : List Event) (h : runWord w s = .next t) :
    runWord w { s with port := p, events := es } = .next { t with port := p, events := es } := by
  have key : ∀ i, exec i s = .next t →
      exec i { s with port := p, events := es } = .next { t with port := p, events := es } := by
    intro i hi
    cases i with
    | nop => cases hi; rfl
    | clr => cases hi; rfl
    | stat => cases hi; rfl
    | push ch =>
      simp only [exec, execPush] at hi ⊢
      split_ifs at hi ⊢ <;> cases hi <;> rfl
    | pad ch =>
      simp only [exec, execPad] at hi ⊢
      split_ifs at hi ⊢
      · cases hi; rfl
      · cases hp : padDigit ch with
        | none => rw [hp] at hi; cases hi; rfl
        | some q => rw [hp] at hi; simp only at hi ⊢; split_ifs at hi ⊢ <;> cases hi <;> rfl
    | rdu off n =>
      have hv : readValid { s with port := p, events := es } off n = readValid s off n := rfl
      simp only [exec, execRdu, hv] at hi ⊢
      split_ifs at hi ⊢ <;> cases hi <;> rfl
    | rds off n =>
      have hv : readValid { s with port := p, events := es } off n = readValid s off n := rfl
      simp only [exec, execRds, hv] at hi ⊢
      split_ifs at hi ⊢ <;> cases hi <;> rfl
  unfold runWord at h ⊢
  split at h
  · exact key _ h
  · cases h; rfl

/-- The append keeps the memory canonical. -/
theorem appendSextet_wf (v : Sextet) (s : State) (h : s.buf.wf) : (appendSextet v s).buf.wf := write_wf _ _ _ h

/-- `CLR` and reset leave a canonical memory, whatever stood before. -/
theorem clearAccumulator_wf (s : State) : (clearAccumulator s).buf.wf ∧ (resetBlock s).buf.wf :=
  ⟨empty_wf, empty_wf⟩

end Sys2Proof.Machine
end

