-- ==== Sys2Proof/Laws/PerInstr.lean ====
section
/-! SUPPORT. The family EncodedWordIsLegal: the word of every command matches a row of the encoding table
(spec/30_encoding.md R42, R45). -/

namespace Sys2Proof.Laws.EncodedWordIsLegal

/-- The word `encode` gives a command matches a row of 30_encoding.md R42. -/
def Statement (i : Instr) : Prop := legalWord (encode i) = true

theorem legal_of_row (w : Word) (r : OpcodeRow) (hr : r ∈ opcodeRows) (h : w &&& r.mask = r.value) :
    legalWord w = true :=
  List.any_eq_true.2 ⟨r, hr, by simpa using h⟩

theorem nop : Statement .nop := (by decide : legalWord (encode .nop) = true)

theorem clr : Statement .clr := (by decide : legalWord (encode .clr) = true)

theorem stat : Statement .stat := (by decide : legalWord (encode .stat) = true)

theorem push (ch : Byte) : Statement (.push ch) := by
  refine legal_of_row _ ⟨0x20000000, 0xFFFFFF00⟩ (by decide) (masked_eq _ _ _ fun i hi => ?_)
  have := ch.isLt
  rw [encode_push_toNat]
  interval_cases i <;> simp <;> omega

theorem pad (ch : Byte) : Statement (.pad ch) := by
  refine legal_of_row _ ⟨0x30000000, 0xFFFFFF00⟩ (by decide) (masked_eq _ _ _ fun i hi => ?_)
  have := ch.isLt
  rw [encode_pad_toNat]
  interval_cases i <;> simp <;> omega

theorem rdu (off : BitCount) (n : FieldWidth) : Statement (.rdu off n) := by
  refine legal_of_row _ ⟨0x40000000, 0xF03F0000⟩ (by decide) (masked_eq _ _ _ fun i hi => ?_)
  have := off.isLt
  have := n.isLt
  rw [encode_rdu_toNat]
  interval_cases i <;> simp <;> omega

theorem rds (off : BitCount) (n : FieldWidth) : Statement (.rds off n) := by
  refine legal_of_row _ ⟨0x50000000, 0xF03F0000⟩ (by decide) (masked_eq _ _ _ fun i hi => ?_)
  have := off.isLt
  have := n.isLt
  rw [encode_rds_toNat]
  interval_cases i <;> simp <;> omega

end Sys2Proof.Laws.EncodedWordIsLegal
end

