-- ==== Sys2Proof/Tests/Slice0.lean ====
section
/-! SUPPORT. Tests, their expected values taken from spec/95_test_vectors.md or worked out by hand from the rule named,
and witnesses: for each statement with hypotheses, a concrete case that meets them, at the boundary values. -/

namespace Sys2Proof.Tests
open Sys2Proof.Machine

/-- The next state of an outcome. -/
def after (o : Host.Outcome State Fault Refusal) : Option State :=
  match o with
  | .next t => some t
  | .fault _ => none
  | .refused _ => none

/-- A block of the default capacity with the given bytes, length and latch. -/
def block (buf : Memory) (len : BitCount) (abort : Bool) : State :=
  { State.reset with buf := buf, len := len, abort := abort }

/-- A block of capacity 16 (95_test_vectors.md P3). -/
def small (buf : Memory) (len : BitCount) (abort : Bool) : State :=
  { block buf len abort with cfg := ⟨1⟩ }

/-- Twelve 1 bits: the start state of 95_test_vectors.md section 2.3. -/
def twelveOnes : State := block [(0, 0xFF), (1, 0xF0)] 12 false

/-- The content of P2 after row 13: 31 bits, 0x7E041E5F. -/
def contentP2 : Memory := [(0, 0xFC), (1, 0x08), (2, 0x3C), (3, 0xBE)]

/-! ### What is well formed -/

theorem test_legalWord_refuses_reserved_opcode : legalWord 0x70000000 = false := by decide
theorem test_legalWord_refuses_reserved_bits_Z : legalWord 0x60000001 = false := by decide
theorem test_legalWord_refuses_reserved_bits_C : legalWord 0x20000131 = false := by decide
theorem test_legalWord_refuses_reserved_bits_R : legalWord 0x50200000 = false := by decide
theorem test_charCodeWf_refuses : charCodeWf 255 = true ∧ charCodeWf 256 = false := by decide
theorem test_offsetWf_refuses : offsetWf 65535 = true ∧ offsetWf 65536 = false := by decide
theorem test_widthWf_refuses : widthWf 63 = true ∧ widthWf 64 = false := by decide
theorem test_asmLine_wf_refuses :
    (AsmLine.push 256).wf = false ∧ (AsmLine.pad 256).wf = false ∧ (AsmLine.rdu 65536 1).wf = false ∧
    (AsmLine.rds 0 64).wf = false ∧ (AsmLine.pushs [0x31, 256]).wf = false ∧
    (AsmLine.field [0x31] 256).wf = false ∧ (AsmLine.fieldEmptyPad [300]).wf = false ∧
    (AsmLine.rd6 65536).wf = false := by decide
/-- 00_scope.md R6: the bounds of `CAP_BITS`, both ends and the multiple of 8. -/
theorem test_capacity_bounds :
    Config.ofBits 0 = none ∧ (Config.ofBits 8).map Config.capBits = some 8 ∧ Config.ofBits 2047 = none ∧
    (Config.ofBits 32768).map Config.capBits = some 32768 ∧ Config.ofBits 32776 = none ∧
    Config.default2048.capBits = 2048 := by decide
/-- The memory's canonical form refuses a listed zero and an order that does not rise. -/
theorem test_memory_wf_refuses :
    ¬ Memory.wf [(0, 0)] ∧ ¬ Memory.wf [(1, 1), (0, 1)] ∧ Memory.wf contentP2 := by decide

/-! ### Decoding: words of 95_test_vectors.md -/

theorem test_decode_nop : decodeTableWord 32 0x00000000 = some .nop := by decide
theorem test_decode_clr : decodeTableWord 32 0x10000000 = some .clr := by decide
theorem test_decode_stat : decodeTableWord 32 0x60000000 = some .stat := by decide
/-- V11. -/
theorem test_decode_push : decodeTableWord 32 0x20000057 = some (.push 0x57) := by decide
/-- V29. -/
theorem test_decode_pad : decodeTableWord 32 0x30000039 = some (.pad 0x39) := by decide
/-- P1, `RDU 8, 30`, and V59. -/
theorem test_decode_rdu : decodeTableWord 32 0x47800008 = some (.rdu 8 30) ∧
    decodeTableWord 32 0x4FC0FFFF = some (.rdu 65535 63) := by decide
/-- P1, `RDS 89, 27`. -/
theorem test_decode_rds : decodeTableWord 32 0x56C00059 = some (.rds 89 27) := by decide
/-- V51 to V58. -/
theorem test_decode_refuses :
    ∀ w ∈ ([0x00000001, 0x10000001, 0x20000131, 0x30008030, 0x40010000, 0x50200000, 0x60000001, 0x70000000,
      0x80000000, 0xF0000000, 0xFFFFFFFF] : List Nat), decodeTableWord 32 w = none := by decide
/-- P1 and P2: `RDS 61, 28`, `RDU 0, 15`, `PUSH 'K'`, `PAD '3'`. -/
theorem test_encode :
    encode (.rds 61 28) = 0x5700003D ∧ encode (.rdu 0 15) = 0x43C00000 ∧ encode (.push 0x4B) = 0x2000004B ∧
    encode (.pad 0x33) = 0x30000033 := by decide

/-! ### The armor table and the pad characters -/

/-- 30_encoding.md R52: the 64 characters in the order of their values. -/
theorem test_armor_table :
    (codes "0123456789:;<=>?@ABCDEFGHIJKLMNOPQRSTUVW`abcdefghijklmnopqrstuvw").map
      (fun c => (armor (BitVec.ofNat 8 c)).toNat) = List.range 64 := by decide
/-- V15a to V15g: none of these is in the alphabet. -/
theorem test_invalid_characters :
    ∀ c ∈ ([0x2F, 0x58, 0x5F, 0x78, 0x00, 0x20, 0x2A, 0x2C, 0x7F, 0x80, 0xB0, 0xFF] : List Nat),
      inAlphabet (BitVec.ofNat 8 c) = false := by decide
/-- V20, V29, V30, V31. -/
theorem test_pad_counts :
    padCount 0x30 = 0 ∧ padCount 0x39 = 9 ∧ padCount 0x00 = 0 ∧ padCount 0x2F = 0 ∧ padCount 0x3A = 0 := by decide

/-! ### The commands -/

/-- V2. -/
theorem test_nop_while_aborted :
    after (exec .nop (block [] 12 true)) = some { block [] 12 true with responses := [⟨.ok, 0⟩] } := by decide
/-- V7. -/
theorem test_clr : after (exec .clr (block [(0, 0xFF)] 168 true)) =
    some { block [] 0 false with responses := [⟨.ok, 0⟩] } := by decide
/-- V5. -/
theorem test_stat_aborted : after (exec .stat (block [] 2046 true)) =
    some { block [] 2046 true with responses := [⟨.ok, 0x000107FE⟩] } := by decide
/-- V18, its third command: cells 3 to 5 hold 1 before it, and it stores, it does not OR. -/
theorem test_push_stores : after (exec (.push 0x30) (block [(0, 0xFC)] 3 false)) =
    some { block [(0, 0xE0)] 9 false with responses := [⟨.ok, 0⟩] } := by decide
/-- V16f: `BADCHAR`, not `OVF`. -/
theorem test_push_bad_into_full : after (exec (.push 0x58) (block [] 2048 false)) =
    some { block [] 2048 true with responses := [⟨.badChar, 0⟩] } := by decide
/-- V29. -/
theorem test_pad_nine : after (exec (.pad 0x39) twelveOnes) =
    some { twelveOnes with len := 3, responses := [⟨.ok, 3⟩] } := by decide
/-- V33f: no truncation. -/
theorem test_pad_while_aborted : after (exec (.pad 0x34) { twelveOnes with abort := true }) =
    some { twelveOnes with responses := [⟨.aborted, 0⟩] } := by decide
/-- P2 row 19 and row 23. -/
theorem test_rdu : after (exec (.rdu 0 31) (block contentP2 31 false)) =
      some { block contentP2 31 false with responses := [⟨.ok, 0x7E041E5F⟩] } ∧
    after (exec (.rdu 27 6) (block contentP2 31 false)) =
      some { block contentP2 31 false with responses := [⟨.rng, 0⟩] } := by decide
/-- V40w: off + n = 65598 does not wrap. -/
theorem test_rdu_no_wrap : after (exec (.rdu 65535 63) (block [] 32 false)) =
    some { block [] 32 false with responses := [⟨.rng, 0⟩] } := by decide
/-- P2 row 18: -27. -/
theorem test_rds_straddling : after (exec (.rds 21 6) (block contentP2 31 false)) =
    some { block contentP2 31 false with responses := [⟨.ok, 0xFFFFFFE5⟩] } := by decide
/-- V40l: all 32 bits, the first one 0. -/
theorem test_rds_all_32 : after (exec (.rds 0 32) (block [(0, 0x58), (1, 0x0F), (2, 0xFD), (3, 0xFF)] 32 false)) =
    some { block [(0, 0x58), (1, 0x0F), (2, 0xFD), (3, 0xFF)] 32 false with
      responses := [⟨.ok, 0x580FFDFF⟩] } := by decide
/-- P5 row 10: `ILL` although `abort` = 1. -/
theorem test_illegal_word_while_aborted : after (runWord 0x20000131 (block [] 6 true)) =
    some { block [] 6 true with responses := [⟨.ill, 0⟩] } := by decide
/-- P3 row 11: an exact fill of 16 bits, after a cut to 10. -/
theorem test_push_exact_fill : after (runWord 0x20000031 (small [(0, 0xFF), (1, 0xF0)] 10 false)) =
    some { small [(0, 0xFF), (1, 0xC1)] 16 false with responses := [⟨.ok, 1⟩] } := by decide

/-! ### The step and the ports -/

/-- V14, as the first command after reset. -/
theorem test_step_runs_the_fetch_word : after (step (State.reset.withFetchWord 32 0x20000031)) =
    some { block [(0, 0x04)] 6 false with responses := [⟨.ok, 1⟩] } := by decide
/-- 70_reset_and_hazards.md R111: a reset drops the command in flight. -/
theorem test_reset_edge : after (clockEdge ⟨true, true, 0x10000000, true⟩
      { twelveOnes with port := .responding 0x20000031 }) = some (block [] 0 false) := by decide
/-- 30_encoding.md R40: the response of `PUSH 'w'` on the ports: status 0, data 63, `cmd_ready` 0. -/
theorem test_response_on_the_port : portOut false { State.reset with port := .responding 0x20000077 } =
    ⟨false, true, some 0, some 63⟩ := by decide

/-- 30_encoding.md R54 and 60_exceptions.md R106. -/
theorem test_driver_side :
    padOperand [] = 0x00 ∧ padOperand [0x32, 0x2A] = 0x32 ∧ Status.ovf.sourceClass = some .bufferOverflow ∧
    Status.badChar.sourceClass = some .malformedSentence ∧ Status.ill.sourceClass = some .driverDefect := by decide

/-! ### The assembler -/

/-- P4: `FIELD "F0wuwh", '4'`, with a comment. -/
theorem test_assemble_field : assembleText (codes "FIELD \"F0wuwh\", '4' ; fill") =
    some [0x20000046, 0x20000030, 0x20000077, 0x20000075, 0x20000077, 0x20000068, 0x30000034] := by decide
/-- 30_encoding.md R49: the quote and the backslash as characters, and a semicolon in quotes. -/
theorem test_assemble_characters :
    assembleText (codes "PUSH '\\''") = some [0x20000027] ∧ assembleText (codes "PUSH '\\\\'") = some [0x2000005C] ∧
    assembleText (codes "PUSH ';'") = some [0x2000003B] ∧ assembleText (codes "PAD 0") = some [0x30000000] ∧
    assembleText (codes "PAD '0'") = some [0x30000030] := by decide
/-- 30_encoding.md R49 with P6: `RD6 70`; and `LEN`, `PUSHS ""`, `FIELD "0"`, a width of 33 (V40t). -/
theorem test_assemble_lines :
    assembleText (codes "RD6 70") = some [0x41800046] ∧ assembleText (codes "LEN") = some [0x60000000] ∧
    assembleText (codes "PUSHS \"\"") = some [] ∧
    assembleText (codes "FIELD \"0\"") = some [0x20000030, 0x30000000] ∧
    assembleText (codes "RDU 0, 33") = some [0x48400000] ∧ assembleText (codes " ; nothing") = some [] := by decide
/-- 30_encoding.md R49: a lower-case mnemonic and operands out of range are refused. -/
theorem test_assemble_refuses :
    assembleText (codes "nop") = none ∧ assembleText (codes "PUSH 256") = none ∧
    assembleText (codes "RDU 65536, 1") = none ∧ assembleText (codes "RDS 0, 64") = none ∧
    assembleText (codes "PUSH 'a") = none ∧ assembleText (codes "STAT 1") = none := by decide
/-- The first lines of P2. -/
theorem test_assemble_program :
    assembleProgram [codes "CLR", codes "PUSH '8'", codes "PUSH '8'", codes "PAD 0"] =
      some [0x10000000, 0x20000038, 0x20000038, 0x30000000] := by decide

/-! ### Witnesses: the hypotheses of each statement are met -/

theorem witness_NopOnlyResponds : (0x00000001 : Word).toNat / 2 ^ 28 = 0 ∧ (0x00000001 : Word) ≠ 0 := by decide
theorem witness_ClrEmptiesTheAccumulator :
    ∃ t, exec .clr (block [] 10 false) = .next t ∧ t.len.toNat + 9 < (block [] 10 false).len.toNat :=
  ⟨_, rfl, by decide⟩
theorem witness_PushAppends_aborted : (block [] 12 true).abort = true := rfl
theorem witness_PushAppends_badChar :
    (block [] 2048 false).abort = false ∧ inAlphabet 0x2F = false ∧ inAlphabet 0x58 = false ∧
    inAlphabet 0x5F = false ∧ inAlphabet 0x78 = false := by decide
theorem witness_PushAppends_ovf :
    (block [] 2043 false).abort = false ∧ inAlphabet 0x30 = true ∧
    (block [] 2043 false).cfg.capBits < (block [] 2043 false).len.toNat + 6 := by decide
theorem witness_PushAppends_ok :
    (block [] 2042 false).abort = false ∧ inAlphabet 0x57 = true ∧ inAlphabet 0x60 = true ∧ inAlphabet 0x77 = true ∧
    (block [] 2042 false).len.toNat + 6 ≤ (block [] 2042 false).cfg.capBits := by decide
theorem witness_InvalidCharacters : State.reset.abort = false ∧ inAlphabet 0xB0 = false := by decide
theorem witness_PushesAreSkipped :
    (block [] 12 true).abort = true ∧ (block [] 0 false).abort = false ∧ inAlphabet 0x58 = false ∧
    (block [] 2046 false).abort = false ∧ inAlphabet 0x77 = true ∧
    (block [] 2046 false).cfg.capBits < (block [] 2046 false).len.toNat + 6 := by decide
theorem witness_PushesAreSkipped_words :
    decode 0x20000058 = .ok (.push 0x58) ∧ decode 0x41800000 = .ok (.rdu 0 6) ∧
    ∀ w ∈ ([0x00000000, 0x41800000, 0x20000032, 0x70000000] : List Word),
      decode w ≠ .ok .clr ∧ ∀ d, decode w ≠ .ok (.pad d) := by
  refine ⟨rfl, rfl, fun w hw => ?_⟩
  simp only [List.mem_cons, List.not_mem_nil, or_false] at hw
  rcases hw with rfl | rfl | rfl | rfl <;> exact ⟨nofun, fun _ => nofun⟩
theorem witness_PadTruncates_aborted : (block [] 12 true).abort = true := rfl
theorem witness_PadTruncates_rng :
    (block [] 8 false).abort = false ∧ 0x30 ≤ (0x39 : Byte).toNat ∧ (0x39 : Byte).toNat ≤ 0x39 ∧
    (block [] 8 false).len.toNat < (0x39 : Byte).toNat - 48 := by decide
theorem witness_PadTruncates_cut :
    (block [] 9 false).abort = false ∧ 0x30 ≤ (0x39 : Byte).toNat ∧ (0x39 : Byte).toNat ≤ 0x39 ∧
    (0x39 : Byte).toNat - 48 ≤ (block [] 9 false).len.toNat ∧ 0x30 ≤ (0x30 : Byte).toNat ∧
    (0x30 : Byte).toNat - 48 ≤ (block [] 0 false).len.toNat := by decide
theorem witness_PadTruncates_nonNumeric :
    (block [] 9 false).abort = false ∧ (0x2F : Byte).toNat < 0x30 ∧ 0x39 < (0x3A : Byte).toNat := by decide
theorem witness_Reads_valid :
    1 ≤ (1 : FieldWidth).toNat ∧ (1 : FieldWidth).toNat ≤ 32 ∧
    (30 : BitCount).toNat + (1 : FieldWidth).toNat ≤ (block contentP2 31 false).len.toNat ∧
    (32 : FieldWidth).toNat ≤ 32 ∧
    (0 : BitCount).toNat + (32 : FieldWidth).toNat ≤ (block contentP2 32 false).len.toNat := by decide
theorem witness_Reads_invalid :
    (0 : FieldWidth).toNat < 1 ∧ 32 < (33 : FieldWidth).toNat ∧
    (block contentP2 31 false).len.toNat < (31 : BitCount).toNat + (1 : FieldWidth).toNat ∧
    (block contentP2 31 false).len.toNat < (65535 : BitCount).toNat + (63 : FieldWidth).toNat := by decide
theorem witness_ReadsFaultExactly : Instr.rdu 0 6 = .rdu 0 6 ∨ Instr.rdu 0 6 = .rds 0 6 := .inl rfl
theorem witness_ReadLaws :
    1 ≤ (32 : FieldWidth).toNat ∧ (32 : FieldWidth).toNat ≤ 32 ∧
    (0 : BitCount).toNat + (32 : FieldWidth).toNat ≤ (block contentP2 32 false).len.toNat ∧
    1 ≤ (31 : FieldWidth).toNat ∧ (31 : FieldWidth).toNat + (1 : FieldWidth).toNat = (32 : FieldWidth).toNat ∧
    (31 : BitCount).toNat = (0 : BitCount).toNat + (31 : FieldWidth).toNat := by decide
theorem witness_MemReadAfterMemWrite : 0 + 3 ≤ 3 ∧ 3 + 6 ≤ 9 := by decide
theorem witness_RduOfAByte :
    (16 : BitCount).toNat = 8 * 2 ∧ 8 * 2 + 8 ≤ (block contentP2 24 false).len.toNat := by decide
theorem witness_MixedWidths :
    (small [] 4 false).abort = false ∧ inAlphabet 0x31 = true ∧ inAlphabet 0x77 = true ∧
    (small [] 4 false).len.toNat + 12 ≤ (small [] 4 false).cfg.capBits ∧
    (7 : BitCount).toNat = (small [] 4 false).len.toNat + 3 := by decide
theorem witness_OnlyPushClrAndResetWriteCells :
    ∃ t, takeEvent (.command 0x20000031) State.reset = .next t ∧ t.buf.bitAt 5 ≠ State.reset.buf.bitAt 5 :=
  ⟨_, rfl, by decide⟩
theorem witness_OnlyPushPadClrAndResetWriteLen : ∃ t, takeEvent (.command 0x30000039) twelveOnes = .next t ∧
    t.len ≠ twelveOnes.len := ⟨_, rfl, by decide⟩
theorem witness_AbortLatch_set : ∃ t, takeEvent (.command 0x20000058) State.reset = .next t ∧
    State.reset.abort = false ∧ t.abort = true := ⟨_, rfl, by decide⟩
theorem witness_AbortLatch_cleared : ∃ t, takeEvent (.command 0x30000034) (block [] 12 true) = .next t ∧
    (block [] 12 true).abort = true ∧ t.abort = false := ⟨_, rfl, by decide⟩
theorem witness_AbortLatch_notRead : ∃ t, exec (.rdu 0 6) twelveOnes = .next t := ⟨_, rfl⟩
theorem witness_Faults_ill : ∃ t, runWord 0x70000000 State.reset = .next t ∧
    t.responses = State.reset.responses ++ [⟨.ill, 0⟩] := ⟨_, rfl, by decide⟩
theorem witness_Faults_aborted : ∃ t, runWord 0x20000035 (block [] 12 true) = .next t ∧
    t.responses = (block [] 12 true).responses ++ [⟨.aborted, 0⟩] := ⟨_, rfl, by decide⟩
theorem witness_Faults_abortedPad : ∃ t, runWord 0x30000000 (block [] 12 true) = .next t ∧
    t.responses = (block [] 12 true).responses ++ [⟨.aborted, 0⟩] := ⟨_, rfl, by decide⟩
theorem witness_Faults_badChar : ∃ t, runWord 0x20000078 State.reset = .next t ∧
    t.responses = State.reset.responses ++ [⟨.badChar, 0⟩] := ⟨_, rfl, by decide⟩
theorem witness_Faults_ovf : ∃ t, runWord 0x20000030 (block [] 2043 false) = .next t ∧
    t.responses = (block [] 2043 false).responses ++ [⟨.ovf, 0⟩] := ⟨_, rfl, by decide⟩
theorem witness_Faults_rng : ∃ t, runWord 0x4080001F (block contentP2 32 false) = .next t ∧
    t.responses = (block contentP2 32 false).responses ++ [⟨.rng, 0⟩] := ⟨_, rfl, by decide⟩
theorem witness_Faults_rngPad : ∃ t, runWord 0x30000037 (block [] 6 false) = .next t ∧
    t.responses = (block [] 6 false).responses ++ [⟨.rng, 0⟩] := ⟨_, rfl, by decide⟩
/-- Each clause in turn: PUSH, PAD, CLR, NOP, STAT, RDU, RDS and an illegal word, with `abort` = 1. -/
theorem witness_CommandsInTheAbortedCondition :
    (block contentP2 31 true).abort = true ∧
    decode 0x20000058 = .ok (.push 0x58) ∧ decode 0x30000034 = .ok (.pad 0x34) ∧ decode 0x10000000 = .ok .clr ∧
    decode 0x00000000 = .ok .nop ∧ decode 0x60000000 = .ok .stat ∧ decode 0x4180000C = .ok (.rdu 12 6) ∧
    decode 0x5180000C = .ok (.rds 12 6) ∧ decode 0x70000000 = .error .reservedOpcode ∧
    ∀ w : Word, ∃ t, runWord w (block contentP2 31 true) = .next t :=
  ⟨rfl, rfl, rfl, rfl, rfl, rfl, rfl, rfl, rfl, fun w => runWord_completes w _⟩
/-- Two states with the same cells, `len` and `abort`, one after a read has been answered. -/
theorem witness_ReadsRepeat_sameCells :
    (block [(0, 0xFC)] 3 true).len = { block [(0, 0xFC)] 3 true with responses := [⟨.ok, 7⟩] }.len ∧
    (block [(0, 0xFC)] 3 true).abort = { block [(0, 0xFC)] 3 true with responses := [⟨.ok, 7⟩] }.abort ∧
    ∀ k, ({ block [(0, 0xFC)] 3 true with responses := [⟨.ok, 7⟩] } : State).buf.bitAt k =
      (block [(0, 0xFC)] 3 true).buf.bitAt k := ⟨rfl, rfl, fun _ => rfl⟩
theorem witness_ReadsRepeat : ∃ t, exec .clr twelveOnes = .next t := ⟨_, rfl⟩
theorem witness_ReadsRepeat_append : (small [] 4 false).abort = false ∧ inAlphabet 0x31 = true ∧
    (small [] 4 false).len.toNat + 12 ≤ (small [] 4 false).cfg.capBits ∧
    2 * padCount 0x36 ≤ twelveOnes.len.toNat := by decide
theorem witness_ArmorIsABijection : inAlphabet 0x57 = true ∧ inAlphabet 0x60 = true := by decide
theorem witness_PadCharacterCounts :
    (0x30 ≤ (0x30 : Byte).toNat ∧ (0x30 : Byte).toNat ≤ 0x39) ∧ (0x2F : Byte).toNat < 0x30 ∧
    0x39 < (0x3A : Byte).toNat := by decide
theorem witness_EncodeOfDecode : decode 0x4FC0FFFF = .ok (.rdu 65535 63) := rfl
theorem witness_CommandsAreTheRows : (0x200000FF : Word) &&& 0xFFFFFF00 = 0x20000000 ∧
    (⟨0x20000000, 0xFFFFFF00⟩ : OpcodeRow) ∈ opcodeRows := by decide
theorem witness_IllegalWords : decode 0x70000000 = .error .reservedOpcode ∧
    decode 0x54010000 = .error .reservedBits := ⟨rfl, rfl⟩
theorem witness_AssemblerLines :
    (∀ x ∈ ([0x30, 0xFF] : List Nat), x < 256) ∧ 255 < 256 ∧ 65535 < 65536 ∧ 63 < 64 := by decide
theorem witness_StepRuns_next :
    (offerWord 0x20000031 State.reset).port = .idle ∧
    (offerWord 0x20000031 State.reset).events = .command 0x20000031 :: [] ∧
    decode 0x20000031 = .ok (.push 0x31) := ⟨rfl, rfl, rfl⟩
theorem witness_StepRuns_inFlight :
    (⟨Config.default2048, [], 0, false, .busy 0x60000000, [], []⟩ : State).port = .busy 0x60000000 ∧
    decode 0x60000000 = .ok .stat := ⟨rfl, rfl⟩
theorem witness_StepRuns_fetch : decode (BitVec.ofNat 32 0x30000032) = .ok (.pad 0x32) := rfl
theorem witness_StepOfOtherEvents :
    (State.reset.port = .idle ∧ State.reset.events = []) ∧
    ({ State.reset with events := [.reset] } : State).events = .reset :: [] ∧
    (offerWord 0x70000000 State.reset).events = .command 0x70000000 :: [] ∧
    decode 0x70000000 = .error .reservedOpcode := ⟨⟨rfl, rfl⟩, rfl, rfl, rfl⟩
theorem witness_EveryStepKeepsTheInvariant :
    (offerWord 0x20000077 twelveOnes).inv ∧ (∃ t, step (offerWord 0x20000077 twelveOnes) = .next t) ∧
    ∃ t, clockEdge ⟨false, true, 0x20000077, true⟩ twelveOnes = .next t := ⟨by decide, ⟨_, rfl⟩, _, rfl⟩
theorem witness_ResetValues : ∃ t, takeEvent .reset twelveOnes = .next t := ⟨_, rfl⟩
theorem witness_NothingWritesTheCapacity : ∃ t, step (offerWord 0x10000000 twelveOnes) = .next t := ⟨_, rfl⟩
theorem witness_ResetAndClrAgree :
    (∃ t, takeEvent .reset twelveOnes = .next t) ∧ ∃ u, exec .clr twelveOnes = .next u := ⟨⟨_, rfl⟩, _, rfl⟩
theorem witness_RunningTheQueue :
    (offerWord 0x20000077 twelveOnes).port = .idle ∧
    (offerWord 0x20000077 twelveOnes).events = [.command 0x20000077] := ⟨rfl, rfl⟩
/-- Two states that differ in the cells a `PAD '3'` cut off. -/
theorem witness_CellsAboveLen : SameContent (block [(0, 0xFC)] 3 false) (block [(0, 0xE0)] 3 false) :=
  ⟨rfl, rfl, rfl, rfl, rfl, rfl, by decide⟩
/-- P2 rows 6 to 9. -/
theorem witness_OneWholeField :
    State.reset.abort = false ∧ (∀ c ∈ ([0x77, 0x30, 0x50] : List Byte), inAlphabet c = true) ∧
    State.reset.len.toNat + 6 * ([0x77, 0x30, 0x50] : List Byte).length ≤ State.reset.cfg.capBits ∧
    padCount 0x33 ≤ State.reset.len.toNat + 6 * ([0x77, 0x30, 0x50] : List Byte).length := by decide
/-- The two fragments of P2; and at capacity 16 a second fragment that just fits after a cut to 10 and not after one to
11. -/
theorem witness_SequenceYields :
    fragmentsFit 2048 0 [([0x77, 0x30, 0x50], 0x33), ([0x37, 0x55, 0x77], 0x32)] = true ∧
    fragmentsFit 16 0 [([0x77, 0x77], 0x32), ([0x31], 0x00)] = true ∧
    fragmentsFit 16 0 [([0x77, 0x77], 0x31), ([0x31], 0x00)] = false := by decide
theorem witness_CharactersUpToTheCapacity :
    (small [] 0 false).abort = false ∧ (small [] 0 false).len = 0 ∧
    ∀ c ∈ ([0x77, 0x77, 0x31] : List Byte), inAlphabet c = true := by decide
theorem witness_AcceptedCommandsCompleteInOrder :
    ∀ e ∈ ([⟨false, true, 0x10000000, false⟩, ⟨false, false, 0, true⟩, ⟨false, false, 0, false⟩] : List Edge),
      e.rst = false := by decide
theorem witness_AcceptedCommandsRespond :
    State.reset.port = .idle ∧ (⟨false, true, 0x10000000, false⟩ : Edge).cmdValid = true ∧
    (∀ e ∈ ([⟨false, false, 0, false⟩] : List Edge), e.rst = false ∧ e.finish = false) ∧
    (⟨false, false, 0, true⟩ : Edge).rst = false ∧ (⟨false, false, 0, true⟩ : Edge).finish = true := by decide
theorem witness_OutputsInEachPhase :
    State.reset.port = .idle ∧ ({ State.reset with port := .busy 0x10000000 } : State).port = .busy 0x10000000 ∧
    ({ State.reset with port := .responding 0x10000000 } : State).port = .responding 0x10000000 := ⟨rfl, rfl, rfl⟩
theorem witness_ResetEdge : (⟨true, true, 0x20000031, true⟩ : Edge).rst = true := rfl
/-- A word held through two cycles in which the block is busy with another. -/
theorem witness_AHeldCommand :
    heldStable [⟨false, true, 0x60000000, true⟩, ⟨false, true, 0x60000000, true⟩, ⟨false, true, 0x60000000, true⟩]
      (.busy 0x10000000) = true := by decide
/-- A sentence that fails at its second character and is closed. -/
theorem witness_DrivenRuns :
    (small [] 0 false).abort = false ∧
    (runDriver [.clr, .push 0x31, .push 0x58] (.fresh, small [] 0 false)).map (fun x => (x.1, x.2.abort)) =
      some (.sentence true, true) ∧
    (runDriver [.clr, .push 0x31, .push 0x58, .pad 0x30] (.fresh, small [] 0 false)).map (fun x => (x.1, x.2.abort)) =
      some (.lost, false) := by decide

end Sys2Proof.Tests
end

section
/-! PROOFS. The abort latch (spec/10_state.md R12) and the values after reset (R19). -/

namespace Sys2Proof.Machine

/-! ### What a command leaves in the latch -/

/-- From `s` to `t` one more response was given, `OVF` or `BADCHAR`: the two faults that set the latch (10_state.md
R12). -/
def answersLatchFault (s t : State) : Prop :=
  t.responses = s.responses ++ [⟨.ovf, 0⟩] ∨ t.responses = s.responses ++ [⟨.badChar, 0⟩]

/-- `CLR` and `PAD`, the commands that clear the latch (10_state.md R12). -/
def clearsLatch (i : Instr) : Prop := i = .clr ∨ ∃ ch, i = .pad ch

/-- `PUSH` leaves the latch set exactly if it was set before or the response is `OVF` or `BADCHAR`. -/
theorem execPush_abort_iff {ch : Byte} {s t : State} (h : execPush ch s = .next t) :
    t.abort = true ↔ answersLatchFault s t ∨ s.abort = true := by
  rcases execPush_cases h with ⟨ha, rfl⟩ | ⟨-, -, rfl⟩ | ⟨-, -, -, rfl⟩ | ⟨ha, -, -, rfl⟩
  · simp [ha, Cause.abortAfter]
  · simp [answersLatchFault, Cause.abortAfter, Cause.status]
  · simp [answersLatchFault, Cause.abortAfter, Cause.status]
  · simp [answersLatchFault, ha]

theorem execPad_abort {ch : Byte} {s t : State} (h : execPad ch s = .next t) : t.abort = false := by
  rcases execPad_cases h with ⟨-, rfl⟩ | ⟨ha, -, rfl⟩ | ⟨p, ha, -, -, rfl⟩ | ⟨p, ha, -, -, rfl⟩
  · rfl
  · exact ha
  · exact ha
  · exact ha

theorem execRdu_abort {off : BitCount} {n : FieldWidth} {s t : State} (h : execRdu off n s = .next t) :
    t.abort = s.abort := by
  rcases execRdu_cases h with ⟨-, rfl⟩ | ⟨-, rfl⟩ <;> rfl

theorem execRds_abort {off : BitCount} {n : FieldWidth} {s t : State} (h : execRds off n s = .next t) :
    t.abort = s.abort := by
  rcases execRds_cases h with ⟨-, rfl⟩ | ⟨-, rfl⟩ <;> rfl

/-- The latch after a command: set by a faulting `PUSH`, or set before and not cleared (10_state.md R12). -/
theorem exec_abort_iff {i : Instr} {s t : State} (h : exec i s = .next t) :
    t.abort = true ↔ (∃ ch, i = .push ch ∧ answersLatchFault s t) ∨ (s.abort = true ∧ ¬ clearsLatch i) := by
  cases i with
  | nop => cases h; simp [clearsLatch]
  | clr => cases h; simp [clearsLatch]
  | stat => cases h; simp [clearsLatch]
  | push ch => simp [execPush_abort_iff h, clearsLatch]
  | pad ch => simp [execPad_abort h, clearsLatch]
  | rdu off n => simp [execRdu_abort h, clearsLatch]
  | rds off n => simp [execRds_abort h, clearsLatch]

/-! ### What an event leaves in the latch -/

/-- The event is a reset, or the word of a command that clears the latch. -/
def Event.clearsLatch (e : Event) : Prop :=
  e = .reset ∨ ∃ w, e = .command w ∧ (decode w = .ok .clr ∨ ∃ ch, decode w = .ok (.pad ch))

/-- The event is the word of a `PUSH`, and from `s` to `t` it was answered `OVF` or `BADCHAR`. -/
def Event.isFaultingPush (e : Event) (s t : State) : Prop :=
  ∃ w ch, e = .command w ∧ decode w = .ok (.push ch) ∧ answersLatchFault s t

/-- `exec_abort_iff` for an event: an illegal word keeps the latch and a reset clears it. -/
theorem takeEvent_abort_iff {e : Event} {s t : State} (h : takeEvent e s = .next t) :
    t.abort = true ↔ e.isFaultingPush s t ∨ (s.abort = true ∧ ¬ e.clearsLatch) := by
  cases e with
  | reset => cases h; simp [Event.isFaultingPush, Event.clearsLatch]
  | command w =>
    rcases runWord_cases h with ⟨i, hd, hi⟩ | ⟨why, hd, rfl⟩
    · simp [exec_abort_iff hi, Event.isFaultingPush, Event.clearsLatch, clearsLatch, hd]
    · simp [Event.isFaultingPush, Event.clearsLatch, hd, Cause.abortAfter]

theorem not_isFaultingPush_of_clearsLatch {e : Event} {s t : State} (h : e.clearsLatch) :
    ¬ e.isFaultingPush s t := by
  rintro ⟨w, ch, rfl, hpush, -⟩
  rcases h with hr | ⟨v, hv, hc⟩
  · cases hr
  · cases hv
    simp [hpush] at hc

/-! ### Who reads the latch -/

theorem execPush_of_abort {s : State} (ch : Byte) (h : s.abort = true) :
    execPush ch s = .next (raiseFault .abortedPush s) := if_pos h

theorem execPad_of_abort {s : State} (ch : Byte) (h : s.abort = true) :
    execPad ch s = .next (raiseFault .abortedPad s) := if_pos h

/-- Bit 16 of the status view is the latch (10_state.md R15). -/
theorem statusView_getLsbD_16 (s : State) : (statusView s).getLsbD 16 = s.abort := by
  rw [statusView, BitVec.getLsbD_append, if_neg (by decide), BitVec.getLsbD_append, if_pos (by decide)]
  simp

/-- `RDU` does not read the latch (10_state.md R12). -/
theorem execRdu_with_abort {off : BitCount} {n : FieldWidth} {s t : State} (b : Bool)
    (h : execRdu off n s = .next t) : execRdu off n { s with abort := b } = .next { t with abort := b } := by
  rcases execRdu_cases h with ⟨hv, rfl⟩ | ⟨hv, rfl⟩
  · exact if_pos hv
  · exact if_neg (ne_true_of_eq_false hv)

/-- `RDS` does not read the latch (10_state.md R12). -/
theorem execRds_with_abort {off : BitCount} {n : FieldWidth} {s t : State} (b : Bool)
    (h : execRds off n s = .next t) : execRds off n { s with abort := b } = .next { t with abort := b } := by
  rcases execRds_cases h with ⟨hv, rfl⟩ | ⟨hv, rfl⟩
  · exact if_pos hv
  · exact if_neg (ne_true_of_eq_false hv)

/-- Settles O18: the latch after an event by `takeEvent_abort_iff`, then its readers and the commands that ignore it. -/
theorem abortLatchIsSetAndClearedAsStated : Obligations.AbortLatchIsSetAndClearedAsStated := by
  refine ⟨fun e s t h => ⟨fun ha => ?_, fun ha ht => ?_, fun hc => ?_⟩, fun s ch ha => ⟨?_, ?_⟩, fun s => ?_,
    fun s t i b hi h => ?_⟩
  · exact (takeEvent_abort_iff h).trans (or_iff_left fun ⟨hs, _⟩ => by simp [ha] at hs)
  · by_contra hc
    have hset : t.abort = true := (takeEvent_abort_iff h).mpr (.inr ⟨ha, hc⟩)
    simp [ht] at hset
  · by_contra ht
    rcases (takeEvent_abort_iff h).mp (eq_true_of_ne_false ht) with hp | ⟨-, hn⟩
    · exact not_isFaultingPush_of_clearsLatch hc hp
    · exact hn hc
  · exact execPush_of_abort ch ha
  · exact execPad_of_abort ch ha
  · exact ⟨statusView s, rfl, statusView_getLsbD_16 s⟩
  · rcases hi with rfl | ⟨off, n, rfl⟩ | ⟨off, n, rfl⟩
    · cases h; rfl
    · exact execRdu_with_abort b h
    · exact execRds_with_abort b h

/-! ### The values after reset -/

/-- Settles O38: the reset state field by field, and `resetBlock` for a reset event. -/
theorem resetValues : Obligations.ResetValues := by
  refine ⟨rfl, rfl, bitAt_nil, rfl, rfl, fun s t h => ?_⟩
  cases h
  exact ⟨rfl, rfl, bitAt_nil, rfl, rfl⟩

end Sys2Proof.Machine
end

section
/-! PROOFS. The value of `MemRead` (spec/20_memory.md R22), and which commands repeat without effect (R27). -/

namespace Sys2Proof.Machine

/-! ### MemRead as a sum -/

/-- The weight of a cell already read doubles when one more bit is read. -/
theorem two_mul_weightedBits (b : Nat → Nat) (n : Nat) :
    2 * ∑ k ∈ Finset.range n, b k * 2 ^ (n - 1 - k) = ∑ k ∈ Finset.range n, b k * 2 ^ (n - k) := by
  rw [Finset.mul_sum]
  refine Finset.sum_congr rfl fun k hk => ?_
  have hk : k < n := Finset.mem_range.mp hk
  rw [show n - k = n - 1 - k + 1 by omega, pow_succ]
  ring

/-- `MemRead` shifts in one bit at a time; its value is the big-endian sum of 20_memory.md R22. -/
theorem read_eq_sum (m : Memory) (off n : Nat) :
    m.read off n = ∑ k ∈ Finset.range n, (m.bitAt (off + k)).toNat * 2 ^ (n - 1 - k) := by
  induction n with
  | zero => rfl
  | succ n ih =>
    rw [Memory.read, ih, two_mul_weightedBits fun k => (m.bitAt (off + k)).toNat, Finset.sum_range_succ]
    simp

/-- Settles O12: the sum by `read_eq_sum`, the bound by `read_lt`. -/
theorem memReadIsTheBigEndianSum : Obligations.MemReadIsTheBigEndianSum :=
  fun m off n => ⟨read_eq_sum m off n, read_lt m off n⟩

/-! ### The outcome of a command -/

/-- The response to a read of `n` bits at `off` whose field, if it is valid, gives `data` (42_bitfield_read.md R82). -/
def readResponse (s : State) (off : BitCount) (n : FieldWidth) (data : Word) : Response :=
  if readValid s off n then ⟨.ok, data⟩ else ⟨.rng, 0⟩

theorem execRdu_eq (off : BitCount) (n : FieldWidth) (s : State) :
    execRdu off n s = .next { s with responses := s.responses ++
      [readResponse s off n (unsignedData (s.buf.read off.toNat n.toNat))] } := by
  unfold execRdu readResponse
  split <;> rfl

theorem execRds_eq (off : BitCount) (n : FieldWidth) (s : State) :
    execRds off n s = .next { s with responses := s.responses ++
      [readResponse s off n (signedData (s.buf.bitAt off.toNat) (s.buf.read off.toNat n.toNat) n.toNat)] } := by
  unfold execRds readResponse
  split <;> rfl

theorem execPush_of_fits {s : State} {ch : Byte} (ha : s.abort = false) (hc : inAlphabet ch = true)
    (hl : s.len.toNat + 6 ≤ s.cfg.capBits) :
    execPush ch s = .next (respond .ok ((armor ch).setWidth 32) (appendSextet (armor ch) s)) := by
  have hl : ¬ s.len.toNat + symW > s.cfg.capBits := not_lt.mpr hl
  simp [execPush, ha, hc, hl]

theorem cutBits_zero (s : State) : cutBits 0 s = s := by simp [cutBits]

/-- A `PAD` that is not aborted and not out of range cuts its count, which is 0 for a non-numeric character
(41_armor_append.md R73, R74). -/
theorem execPad_of_le {s : State} {ch : Byte} (ha : s.abort = false) (hp : padCount ch ≤ s.len.toNat) :
    execPad ch s =
      .next (respond .ok ((cutBits (padCount ch) s).len.setWidth 32) (cutBits (padCount ch) s)) := by
  unfold padCount at hp ⊢
  cases hd : padDigit ch with
  | none => simp [execPad, ha, hd, cutBits_zero]
  | some p =>
    have hp : ¬ p > s.len.toNat := by simpa [hd] using hp
    simp [execPad, ha, hd, hp]

/-! ### Reads repeat -/

section
variable {s u : State} (hbuf : ∀ k, u.buf.bitAt k = s.buf.bitAt k) (hlen : u.len = s.len)

include hlen in
theorem readValid_congr (off : BitCount) (n : FieldWidth) : readValid u off n = readValid s off n := by
  rw [readValid, hlen, readValid]

include hlen in
theorem readResponse_congr (off : BitCount) (n : FieldWidth) (data : Word) :
    readResponse u off n data = readResponse s off n data := by
  rw [readResponse, readValid_congr hlen, readResponse]

include hlen in
theorem statusView_congr (habort : u.abort = s.abort) : statusView u = statusView s := by
  simp only [statusView, habort, hlen]

include hbuf hlen

/-- The response to `RDU` depends only on the cells and `len`. -/
theorem execRdu_repeats (off : BitCount) (n : FieldWidth) :
    ∃ r : Response, execRdu off n s = .next { s with responses := s.responses ++ [r] } ∧
      execRdu off n u = .next { u with responses := u.responses ++ [r] } := by
  refine ⟨_, execRdu_eq off n s, ?_⟩
  rw [execRdu_eq, readResponse_congr hlen, read_congr u.buf s.buf _ _ fun _ _ => hbuf _]

/-- The response to `RDS` depends only on the cells and `len`. -/
theorem execRds_repeats (off : BitCount) (n : FieldWidth) :
    ∃ r : Response, execRds off n s = .next { s with responses := s.responses ++ [r] } ∧
      execRds off n u = .next { u with responses := u.responses ++ [r] } := by
  refine ⟨_, execRds_eq off n s, ?_⟩
  rw [execRds_eq, readResponse_congr hlen, hbuf, read_congr u.buf s.buf _ _ fun _ _ => hbuf _]

end

/-! ### PUSH and PAD do not -/

/-- Two pushes that fit append twelve bits. -/
theorem execPush_twice {s : State} {ch : Byte} (ha : s.abort = false) (hc : inAlphabet ch = true)
    (hl : s.len.toNat + 12 ≤ s.cfg.capBits) :
    ∃ t u : State, execPush ch s = .next t ∧ execPush ch t = .next u ∧
      t.len.toNat = s.len.toNat + 6 ∧ u.len.toNat = s.len.toNat + 12 := by
  have ht := appendSextet_len_toNat (armor ch) s (by omega)
  have hfit : (appendSextet (armor ch) s).len.toNat + 6 ≤ s.cfg.capBits := by omega
  refine ⟨_, _, execPush_of_fits ha hc (by omega), execPush_of_fits ha hc hfit, ht, ?_⟩
  exact (appendSextet_len_toNat (armor ch) (appendSextet (armor ch) s) hfit).trans (by omega)

/-- Two pads that stay within the content cut their count twice. -/
theorem execPad_twice {s : State} {ch : Byte} (ha : s.abort = false) (hp : 2 * padCount ch ≤ s.len.toNat) :
    ∃ t u : State, execPad ch s = .next t ∧ execPad ch t = .next u ∧
      t.len.toNat = s.len.toNat - padCount ch ∧ u.len.toNat = s.len.toNat - 2 * padCount ch := by
  have ht := cutBits_len_toNat (padCount ch) s
  have hle : padCount ch ≤ (cutBits (padCount ch) s).len.toNat := by omega
  refine ⟨_, _, execPad_of_le ha (by omega), execPad_of_le ha hle, ht, ?_⟩
  exact (cutBits_len_toNat (padCount ch) (cutBits (padCount ch) s)).trans (by omega)

/-- Settles O23: the readers by `statusView_congr`, `execRdu_repeats` and `execRds_repeats`, `CLR` because its writes do
not depend on the state, and the two repetitions. -/
theorem readsRepeatAndClrIsIdempotent : Obligations.ReadsRepeatAndClrIsIdempotent := by
  refine ⟨fun s u i hi hbuf hlen habort => ?_, fun s t h => ?_, fun s ch => execPush_twice, fun s ch => execPad_twice⟩
  · rcases hi with rfl | rfl | ⟨off, n, rfl⟩ | ⟨off, n, rfl⟩
    · exact ⟨⟨.ok, 0⟩, rfl, rfl⟩
    · exact ⟨⟨.ok, statusView s⟩, rfl, statusView_congr hlen habort ▸ rfl⟩
    · exact execRdu_repeats hbuf hlen off n
    · exact execRds_repeats hbuf hlen off n
  · cases h
    rfl

end Sys2Proof.Machine
end

section
/-! PROOFS. The rows of the encoding table (spec/30_encoding.md R42), the illegal words (R45), and the one response to
every word (R46). -/

namespace Sys2Proof

/-! ### The three formats -/

theorem append_eq_append_iff {m n : Nat} (x x' : BitVec m) (y y' : BitVec n) :
    x ++ y = x' ++ y' ↔ x = x' ∧ y = y' := by
  refine ⟨fun h => ⟨?_, ?_⟩, fun ⟨hx, hy⟩ => by rw [hx, hy]⟩
  · simpa [BitVec.extractLsb'_append_eq_left] using congrArg (BitVec.extractLsb' n m) h
  · simpa [BitVec.extractLsb'_append_eq_right] using congrArg (BitVec.extractLsb' 0 n) h

/-- Two fields side by side are one field. -/
theorem slice_append_slice (w : Word) (lo k n : Nat) :
    slice w (lo + k) n ++ slice w lo k = slice w lo (n + k) :=
  BitVec.extractLsb'_append_extractLsb'_eq_extractLsb' rfl

theorem slice_all (w : Word) : slice w 0 32 = w := BitVec.extractLsb'_eq_self

/-- The row of a command without operands: the reserved bits are 27 to 0. -/
theorem and_mask_eq_iff_of_noOperand (w : Word) (op : BitVec 4) :
    w &&& 0xFFFFFFFF = op ++ 0#28 ↔ opField w = op ∧ slice w 0 28 = 0 := by
  have hw : w = opField w ++ slice w 0 28 := ((slice_append_slice w 0 28 4).trans (slice_all w)).symm
  have hmask : (0xFFFFFFFF : Word) = BitVec.allOnes 4 ++ BitVec.allOnes 28 := by decide
  conv_lhs => rw [hw, hmask, BitVec.and_append, append_eq_append_iff]
  simp only [BitVec.and_allOnes]
  rfl

/-- The row of a command with a character: the reserved bits are 27 to 8. -/
theorem and_mask_eq_iff_of_character (w : Word) (op : BitVec 4) :
    w &&& 0xFFFFFF00 = op ++ 0#20 ++ 0#8 ↔ opField w = op ∧ slice w 8 20 = 0 := by
  have hw : w = opField w ++ slice w 8 20 ++ chField w := by
    rw [opField, slice_append_slice w 8 20 4, chField, slice_append_slice w 0 8 24, slice_all]
  have hmask : (0xFFFFFF00 : Word) = BitVec.allOnes 4 ++ BitVec.allOnes 20 ++ 0#8 := by decide
  conv_lhs => rw [hw, hmask, BitVec.and_append, append_eq_append_iff]
  simp only [BitVec.and_append, append_eq_append_iff, BitVec.and_allOnes, BitVec.and_zero, and_true]
  rfl

/-- The row of a read: the reserved bits are 21 to 16, between the two operands. -/
theorem and_mask_eq_iff_of_read (w : Word) (op : BitVec 4) :
    w &&& 0xF03F0000 = op ++ 0#6 ++ 0#6 ++ 0#16 ↔ opField w = op ∧ slice w 16 6 = 0 := by
  have hw : w = opField w ++ nField w ++ slice w 16 6 ++ offField w := by
    rw [opField, nField, slice_append_slice w 22 6 4, slice_append_slice w 16 6 10, offField,
      slice_append_slice w 0 16 16, slice_all]
  have hmask : (0xF03F0000 : Word) = BitVec.allOnes 4 ++ 0#6 ++ BitVec.allOnes 6 ++ 0#16 := by decide
  conv_lhs => rw [hw, hmask, BitVec.and_append, append_eq_append_iff]
  simp only [BitVec.and_append, append_eq_append_iff, BitVec.and_allOnes, BitVec.and_zero, and_true]
  rfl

/-! ### The row of a command -/

/-- The `op` of a command (30_encoding.md R41). -/
def Instr.op : Instr → BitVec 4
  | .nop => 0
  | .clr => 1
  | .push _ => 2
  | .pad _ => 3
  | .rdu _ _ => 4
  | .rds _ _ => 5
  | .stat => 6

/-- The reserved bits of `w` are 0 in the format of the command (30_encoding.md R44). -/
def Instr.reservedZero (w : Word) : Instr → Prop
  | .nop | .clr | .stat => slice w 0 28 = 0
  | .push _ | .pad _ => slice w 8 20 = 0
  | .rdu _ _ | .rds _ _ => slice w 16 6 = 0

/-- The command of the same row whose operands are the fields of `w`. -/
def Instr.readFrom (w : Word) : Instr → Instr
  | .nop => .nop
  | .clr => .clr
  | .push _ => .push (chField w)
  | .pad _ => .pad (chField w)
  | .rdu _ _ => .rdu (offField w) (nField w)
  | .rds _ _ => .rds (offField w) (nField w)
  | .stat => .stat

/-- The row of a command in the encoding table. -/
def Instr.row : Instr → OpcodeRow
  | .nop => ⟨0x00000000, 0xFFFFFFFF⟩
  | .clr => ⟨0x10000000, 0xFFFFFFFF⟩
  | .push _ => ⟨0x20000000, 0xFFFFFF00⟩
  | .pad _ => ⟨0x30000000, 0xFFFFFF00⟩
  | .rdu _ _ => ⟨0x40000000, 0xF03F0000⟩
  | .rds _ _ => ⟨0x50000000, 0xF03F0000⟩
  | .stat => ⟨0x60000000, 0xFFFFFFFF⟩

@[simp] theorem Instr.readFrom_readFrom (w : Word) (i : Instr) :
    (i.readFrom w).readFrom w = i.readFrom w := by cases i <;> rfl

@[simp] theorem Instr.row_readFrom (w : Word) (i : Instr) : (i.readFrom w).row = i.row := by cases i <;> rfl

/-- The table's rows are the rows of the commands. -/
theorem mem_opcodeRows_iff (r : OpcodeRow) : r ∈ opcodeRows ↔ ∃ i : Instr, i.row = r := by
  constructor
  · intro h
    simp only [opcodeRows, List.mem_cons, List.not_mem_nil, or_false] at h
    rcases h with rfl | rfl | rfl | rfl | rfl | rfl | rfl
    exacts [⟨.nop, rfl⟩, ⟨.clr, rfl⟩, ⟨.push 0, rfl⟩, ⟨.pad 0, rfl⟩, ⟨.rdu 0 0, rfl⟩, ⟨.rds 0 0, rfl⟩, ⟨.stat, rfl⟩]
  · rintro ⟨i, rfl⟩
    cases i <;> simp [opcodeRows, Instr.row]

/-- A word matches a command's row when it has the command's `op` and zeros in the reserved bits. -/
theorem and_row_mask_eq_iff (w : Word) (i : Instr) :
    w &&& i.row.mask = i.row.value ↔ opField w = i.op ∧ i.reservedZero w := by
  cases i with
  | nop => exact and_mask_eq_iff_of_noOperand w 0
  | clr => exact and_mask_eq_iff_of_noOperand w 1
  | push => exact and_mask_eq_iff_of_character w 2
  | pad => exact and_mask_eq_iff_of_character w 3
  | rdu => exact and_mask_eq_iff_of_read w 4
  | rds => exact and_mask_eq_iff_of_read w 5
  | stat => exact and_mask_eq_iff_of_noOperand w 6

/-! ### Decoding -/

theorem requireZero_eq_ok_iff {k : Nat} (reserved : BitVec k) (i j : Instr) :
    requireZero reserved i = .ok j ↔ reserved = 0 ∧ i = j := by
  unfold requireZero
  split
  · next h => simp [h]
  · next h => simpa using fun h' => absurd h' h

theorem exists_requireZero_eq_error_iff {k : Nat} (reserved : BitVec k) (i : Instr) :
    (∃ why, requireZero reserved i = .error why) ↔ reserved ≠ 0 := by
  unfold requireZero
  split
  · next h => simp [h]
  · next h => exact iff_of_true ⟨_, rfl⟩ h

/-- The decoder reads a word as a command exactly when `op`, the reserved bits and the operands are the command's. -/
theorem decode_eq_ok_iff_fields (w : Word) (i : Instr) :
    decode w = .ok i ↔ opField w = i.op ∧ i.reservedZero w ∧ i.readFrom w = i := by
  constructor
  · intro h
    unfold decode at h
    split at h
    case h_8 => cases h
    all_goals
      next hop =>
      obtain ⟨hzero, rfl⟩ := (requireZero_eq_ok_iff _ _ _).mp h
      exact ⟨BitVec.eq_of_toNat_eq hop, hzero, rfl⟩
  · rintro ⟨hop, hzero, hread⟩
    cases i <;>
    · simp only [decode, hop, Instr.op]
      exact (requireZero_eq_ok_iff _ _ _).mpr ⟨hzero, hread⟩

/-- A word is a command exactly when it matches the command's row and the operands are its fields. -/
theorem decode_eq_ok_iff_row (w : Word) (i : Instr) :
    decode w = .ok i ↔ w &&& i.row.mask = i.row.value ∧ i.readFrom w = i := by
  rw [decode_eq_ok_iff_fields, and_row_mask_eq_iff, and_assoc]

/-- A word that matches a command's row is the command of that row with the word's operands. -/
theorem decode_of_matches_row {w : Word} {i : Instr} (h : w &&& i.row.mask = i.row.value) :
    decode w = .ok (i.readFrom w) := by
  simpa [decode_eq_ok_iff_row] using h

/-- For a command that already holds the word's operands, matching its row is all there is to decoding. -/
theorem decode_eq_ok_iff_matches_row (w : Word) (i : Instr) (h : i.readFrom w = i) :
    decode w = .ok i ↔ w &&& i.row.mask = i.row.value := by
  simp [decode_eq_ok_iff_row, h]

theorem legalWord_iff (w : Word) : legalWord w = true ↔ ∃ i : Instr, w &&& i.row.mask = i.row.value := by
  simp only [legalWord, List.any_eq_true, beq_iff_eq, mem_opcodeRows_iff]
  exact ⟨fun ⟨_, ⟨i, hi⟩, h⟩ => ⟨i, hi ▸ h⟩, fun ⟨i, h⟩ => ⟨_, ⟨i, rfl⟩, h⟩⟩

theorem exists_decode_eq_ok_iff_legalWord (w : Word) : (∃ i, decode w = .ok i) ↔ legalWord w = true := by
  rw [legalWord_iff]
  constructor
  · rintro ⟨i, h⟩
    obtain ⟨hmatch, -⟩ := (decode_eq_ok_iff_row w i).mp h
    exact ⟨i, hmatch⟩
  · rintro ⟨i, hmatch⟩
    exact ⟨_, decode_of_matches_row hmatch⟩

/-- No word matches two rows: it would decode to a command of each. -/
theorem row_eq_of_matches {w : Word} {i j : Instr} (hi : w &&& i.row.mask = i.row.value)
    (hj : w &&& j.row.mask = j.row.value) : i.row = j.row := by
  have h : i.readFrom w = j.readFrom w :=
    Except.ok.inj ((decode_of_matches_row hi).symm.trans (decode_of_matches_row hj))
  rw [← Instr.row_readFrom w i, h, Instr.row_readFrom]

/-- Settles O29: each row by `decode_eq_ok_iff_matches_row`, legality by the rows of the commands, and no word in two
rows because the decoder gives one command. -/
theorem commandsAreTheRowsOfTheTable : Obligations.CommandsAreTheRowsOfTheTable := by
  refine ⟨fun w => ⟨?_, ?_, ?_, ?_, ?_, ?_, ?_, exists_decode_eq_ok_iff_legalWord w⟩, fun w r hr r' hr' h h' => ?_⟩
  · exact decode_eq_ok_iff_matches_row w .nop rfl
  · exact decode_eq_ok_iff_matches_row w .clr rfl
  · exact decode_eq_ok_iff_matches_row w (.push (chField w)) rfl
  · exact decode_eq_ok_iff_matches_row w (.pad (chField w)) rfl
  · exact decode_eq_ok_iff_matches_row w (.rdu (offField w) (nField w)) rfl
  · exact decode_eq_ok_iff_matches_row w (.rds (offField w) (nField w)) rfl
  · exact decode_eq_ok_iff_matches_row w .stat rfl
  · obtain ⟨i, rfl⟩ := (mem_opcodeRows_iff r).mp hr
    obtain ⟨j, rfl⟩ := (mem_opcodeRows_iff r').mp hr'
    exact row_eq_of_matches h h'

/-! ### Illegal words -/

theorem opField_toNat (w : Word) : (opField w).toNat = w.toNat / 2 ^ 28 := by
  have := w.isLt
  rw [opField, slice_toNat]
  omega

theorem slice_eq_zero_iff (w : Word) (lo k : Nat) : slice w lo k = 0 ↔ w.toNat / 2 ^ lo % 2 ^ k = 0 := by
  rw [← slice_toNat, ← BitVec.toNat_inj]
  simp

/-- A word is illegal when its `op` is reserved or a reserved bit of its `op`'s format is 1 (30_encoding.md R45). -/
theorem exists_decode_eq_error_iff (w : Word) : (∃ why, decode w = .error why) ↔
    7 ≤ w.toNat / 2 ^ 28 ∨
    ((w.toNat / 2 ^ 28 = 0 ∨ w.toNat / 2 ^ 28 = 1 ∨ w.toNat / 2 ^ 28 = 6) ∧ w.toNat % 2 ^ 28 ≠ 0) ∨
    ((w.toNat / 2 ^ 28 = 2 ∨ w.toNat / 2 ^ 28 = 3) ∧ w.toNat / 2 ^ 8 % 2 ^ 20 ≠ 0) ∨
    ((w.toNat / 2 ^ 28 = 4 ∨ w.toNat / 2 ^ 28 = 5) ∧ w.toNat / 2 ^ 16 % 2 ^ 6 ≠ 0) := by
  unfold decode
  rw [opField_toNat]
  split
  case h_8 =>
    simp only [imp_false] at *
    exact iff_of_true ⟨_, rfl⟩ (.inl (by omega))
  all_goals
    rw [exists_requireZero_eq_error_iff, Ne, slice_eq_zero_iff]
    omega

end Sys2Proof

namespace Sys2Proof.Machine

theorem runWord_of_error {w : Word} {why : IllegalWord} (s : State) (h : decode w = .error why) :
    runWord w s = .next (raiseFault .ill s) := by
  simp only [runWord, h]

/-- Settles O30: the illegal words by `exists_decode_eq_error_iff`, their effect is the fault `ILL`, which keeps the
latch. -/
theorem illegalWordsAnswerIllAndChangeNothing : Obligations.IllegalWordsAnswerIllAndChangeNothing :=
  ⟨exists_decode_eq_error_iff, fun _ _ s h => runWord_of_error s h⟩

/-! ### The data of a response -/

/-- The six bits of `armor` hold the whole armor value. -/
theorem armor_toNat {ch : Byte} (h : inAlphabet ch = true) : (armor ch).toNat = armorNumber ch := by
  rw [armor, BitVec.toNat_ofNat, Nat.mod_eq_of_lt]
  simp only [inAlphabet, Bool.or_eq_true, decide_eq_true_eq] at h
  simp only [armorNumber]
  split <;> omega

theorem unsignedData_toNat {u n : Nat} (hn : n ≤ 32) (hu : u < 2 ^ n) : (unsignedData u).toNat = u :=
  Nat.mod_eq_of_lt (hu.trans_le (Nat.pow_le_pow_right two_pos hn))

/-- The first cell of a field is the most significant bit of its value. -/
theorem msb_read (m : Memory) (off : Nat) {n : Nat} (hn : 1 ≤ n) :
    (BitVec.ofNat n (m.read off n)).msb = m.bitAt off := by
  have hlast : n - 1 < n := by omega
  rw [BitVec.msb_eq_getLsbD_last, BitVec.getLsbD_ofNat, read_testBit]
  simp [hlast]

/-- The value of a field read as a two's complement number of its own width (42_bitfield_read.md R81). -/
theorem toInt_read (m : Memory) (off : Nat) {n : Nat} (hn : 1 ≤ n) :
    (BitVec.ofNat n (m.read off n)).toInt =
      if m.bitAt off then (m.read off n : Int) - 2 ^ n else m.read off n := by
  rw [BitVec.toInt_eq_msb_cond, msb_read m off hn, BitVec.toNat_ofNat, Nat.mod_eq_of_lt (read_lt m off n)]
  simp

/-- Sign extension to 32 bits keeps the signed value of the field. -/
theorem signedData_toInt (m : Memory) (off : Nat) {n : Nat} (hn : 1 ≤ n) (hn' : n ≤ 32) :
    (signedData (m.bitAt off) (m.read off n) n).toInt =
      if m.bitAt off then (m.read off n : Int) - 2 ^ n else m.read off n := by
  rw [signedData, ← toInt_read m off hn]
  have hpow : (2 : Int) ^ (n - 1) ≤ 2 ^ 31 := pow_le_pow_right₀ (by decide) (by omega)
  have hlo := BitVec.le_toInt (BitVec.ofNat n (m.read off n))
  have hhi := BitVec.toInt_lt (x := BitVec.ofNat n (m.read off n))
  exact BitVec.toInt_ofInt_eq_self (by decide) ((neg_le_neg hpow).trans hlo) (hhi.trans_le hpow)

theorem statusView_toNat (s : State) : (statusView s).toNat = s.abort.toNat * 2 ^ 16 + s.len.toNat := by
  rw [statusView, BitVec.toNat_append, ← Nat.shiftLeft_add_eq_or_of_lt s.len.isLt, Nat.shiftLeft_eq]
  cases s.abort <;> rfl

theorem readValid_iff (s : State) (off : BitCount) (n : FieldWidth) :
    readValid s off n = true ↔ 1 ≤ n.toNat ∧ n.toNat ≤ 32 ∧ off.toNat + n.toNat ≤ s.len.toNat :=
  decide_eq_true_iff

/-! ### One response to every word -/

/-- The data the command table gives for a command answered `OK`, from the state before and after. -/
def okData (s t : State) (d : Word) : Instr → Prop
  | .nop | .clr => d = 0
  | .push ch => d.toNat = armorNumber ch
  | .pad _ => d.toNat = t.len.toNat
  | .rdu off n => d.toNat = s.buf.read off.toNat n.toNat
  | .rds off n => d.toInt =
      if s.buf.bitAt off.toNat then (s.buf.read off.toNat n.toNat : Int) - 2 ^ n.toNat
      else s.buf.read off.toNat n.toNat
  | .stat => d.toNat = s.abort.toNat * 2 ^ 16 + s.len.toNat

/-- From `s` to `t` exactly one response was given, with data 0 unless it is `OK` and then with data that `P` holds
of. -/
def answersOnce (s t : State) (P : Word → Prop) : Prop :=
  ∃ r : Response, t.responses = s.responses ++ [r] ∧ (r.status ≠ .ok → r.data = 0) ∧ (r.status = .ok → P r.data)

theorem Cause.status_ne_ok (c : Cause) : c.status ≠ .ok := by cases c <;> decide

theorem answersOnce_raiseFault (c : Cause) (s : State) (P : Word → Prop) : answersOnce s (raiseFault c s) P :=
  ⟨⟨c.status, 0⟩, rfl, fun _ => rfl, fun h => absurd h c.status_ne_ok⟩

/-- A command that writes no response itself and then responds `OK` answers once. -/
theorem answersOnce_respond_ok {s u : State} {d : Word} {P : Word → Prop} (hu : u.responses = s.responses)
    (hd : P d) : answersOnce s (respond .ok d u) P :=
  ⟨⟨.ok, d⟩, by rw [respond_responses, hu], fun h => absurd rfl h, fun _ => hd⟩

/-- Every command answers once, with the data of the table (30_encoding.md R46). -/
theorem exec_answersOnce {i : Instr} {s t : State} (h : exec i s = .next t) :
    answersOnce s t fun d => okData s t d i := by
  cases i with
  | nop => cases h; exact answersOnce_respond_ok rfl rfl
  | clr => cases h; exact answersOnce_respond_ok rfl rfl
  | stat => cases h; exact answersOnce_respond_ok rfl (statusView_toNat s)
  | push ch =>
    rcases execPush_cases h with ⟨-, rfl⟩ | ⟨-, -, rfl⟩ | ⟨-, -, -, rfl⟩ | ⟨-, hc, -, rfl⟩
    · exact answersOnce_raiseFault _ s _
    · exact answersOnce_raiseFault _ s _
    · exact answersOnce_raiseFault _ s _
    · exact answersOnce_respond_ok rfl ((BitVec.toNat_setWidth_of_le (by decide)).trans (armor_toNat hc))
  | pad ch =>
    rcases execPad_cases h with ⟨-, rfl⟩ | ⟨-, -, rfl⟩ | ⟨p, -, -, -, rfl⟩ | ⟨p, -, -, -, rfl⟩
    · exact answersOnce_raiseFault _ s _
    · exact answersOnce_respond_ok rfl (BitVec.toNat_setWidth_of_le (by decide))
    · exact answersOnce_raiseFault _ s _
    · exact answersOnce_respond_ok rfl (BitVec.toNat_setWidth_of_le (by decide))
  | rdu off n =>
    rcases execRdu_cases h with ⟨hv, rfl⟩ | ⟨-, rfl⟩
    · obtain ⟨-, hn, -⟩ := (readValid_iff s off n).mp hv
      exact answersOnce_respond_ok rfl (unsignedData_toNat hn (read_lt _ _ _))
    · exact answersOnce_raiseFault _ s _
  | rds off n =>
    rcases execRds_cases h with ⟨hv, rfl⟩ | ⟨-, rfl⟩
    · obtain ⟨hpos, hn, -⟩ := (readValid_iff s off n).mp hv
      exact answersOnce_respond_ok rfl (signedData_toInt s.buf off.toNat hpos hn)
    · exact answersOnce_raiseFault _ s _

/-- Settles O19: a word that decodes answers as its command does, by `exec_answersOnce`; any other answers the fault
`ILL`. -/
theorem everyWordGetsExactlyOneResponse : Obligations.EveryWordGetsExactlyOneResponse := by
  intro w s
  obtain ⟨t, h⟩ := runWord_completes w s
  rcases runWord_cases h with ⟨i, hd, hi⟩ | ⟨why, hd, rfl⟩
  · obtain ⟨r, hr, hfault, hok⟩ := exec_answersOnce hi
    refine ⟨t, r, h, hr, hfault, fun hs => ?_⟩
    rw [hd]
    cases i <;> exact hok hs
  · obtain ⟨r, hr, hfault, hok⟩ := answersOnce_raiseFault .ill s fun _ => False
    refine ⟨_, r, h, hr, hfault, fun hs => ?_⟩
    rw [hd]
    exact hok hs

end Sys2Proof.Machine
end

section
/-! PROOFS. The accumulator control commands `NOP`, `CLR` and `STAT` (spec/40_accumulator_control.md). -/

namespace Sys2Proof

/-- A command whose row fixes every bit of the word has exactly one word (30_encoding.md R42). -/
theorem decode_eq_ok_iff_eq_rowValue (w : Word) (i : Instr) (hmask : i.row.mask = BitVec.allOnes 32)
    (hread : i.readFrom w = i) : decode w = .ok i ↔ w = i.row.value := by
  rw [decode_eq_ok_iff_matches_row w i hread, hmask, BitVec.and_allOnes]

end Sys2Proof

namespace Sys2Proof.Machine

/-! ### CLR -/

theorem padDigit_le_nine {ch : Byte} {p : Nat} (h : padDigit ch = some p) : p ≤ 9 := by
  obtain ⟨⟨-, hhi⟩, hp⟩ := Option.ite_none_right_eq_some.mp h
  cases hp
  omega

/-- Of the commands other than `CLR`, only a `PAD` lowers `len`, and by its one digit (40_accumulator_control.md
R61). -/
theorem exec_len_le_add_nine {i : Instr} {s t : State} (h : exec i s = .next t) (hi : i ≠ .clr) :
    s.len.toNat ≤ t.len.toNat + 9 := by
  rcases exec_cases h with ⟨_, rfl⟩ | ⟨_, rfl⟩ | ⟨hclr, -⟩ | ⟨ch, -, -, -, hl, rfl⟩ | ⟨ch, p, -, -, hp, -, rfl⟩
  · simp
  · simp
  · exact absurd hclr hi
  · rw [respond_len, appendSextet_len_toNat _ _ hl]
    omega
  · have := padDigit_le_nine hp
    rw [respond_len, cutBits_len_toNat]
    omega

/-- No read is valid while nothing is held (42_bitfield_read.md R82). -/
theorem readResponse_of_len_eq_zero {s : State} (hlen : s.len = 0) (off : BitCount) (n : FieldWidth) (data : Word) :
    readResponse s off n data = ⟨.rng, 0⟩ := by
  refine if_neg fun hv => ?_
  obtain ⟨hpos, -, hfit⟩ := (readValid_iff s off n).mp hv
  have : s.len.toNat = 0 := congrArg BitVec.toNat hlen
  omega

theorem execRdu_of_len_eq_zero {s : State} (hlen : s.len = 0) (off : BitCount) (n : FieldWidth) :
    execRdu off n s = .next { s with responses := s.responses ++ [⟨.rng, 0⟩] } := by
  rw [execRdu_eq, readResponse_of_len_eq_zero hlen]

theorem execRds_of_len_eq_zero {s : State} (hlen : s.len = 0) (off : BitCount) (n : FieldWidth) :
    execRds off n s = .next { s with responses := s.responses ++ [⟨.rng, 0⟩] } := by
  rw [execRds_eq, readResponse_of_len_eq_zero hlen]

/-- Settles O2: the word by its row, the bound on what other commands cut by `exec_len_le_add_nine`, the writes by
what `clearAccumulator` sets, and the reads after it because nothing is held. -/
theorem clrEmptiesTheAccumulator : Obligations.ClrEmptiesTheAccumulator := by
  refine ⟨fun w => decode_eq_ok_iff_eq_rowValue w .clr rfl rfl, fun i s t h hlt => ?_, fun s => ?_⟩
  · by_contra hi
    have := exec_len_le_add_nine h hi
    omega
  · exact ⟨respond .ok 0 (clearAccumulator s), rfl, bitAt_nil, rfl, rfl, rfl, rfl, rfl, rfl,
      fun off n => ⟨execRdu_of_len_eq_zero rfl off n, execRds_of_len_eq_zero rfl off n⟩⟩

/-! ### STAT -/

/-- Bits 15 to 0 of the status view are `len` (10_state.md R15). -/
theorem statusView_extractLsb'_len (s : State) : (statusView s).extractLsb' 0 16 = s.len :=
  BitVec.extractLsb'_append_eq_right

/-- The status view has zeros above bit 16 (10_state.md R15). -/
theorem statusView_getLsbD_of_ge (s : State) {k : Nat} (hk : 17 ≤ k) : (statusView s).getLsbD k = false := by
  have hlen : ¬ k < 16 := by omega
  have habort : ¬ k - 16 < 1 := by omega
  rw [statusView, BitVec.getLsbD_append, if_neg hlen, BitVec.getLsbD_append, if_neg habort, BitVec.getLsbD_zero]

/-- Settles O3: the word by its row, the layout by the bits of the status view. -/
theorem statReturnsLenAndAbort : Obligations.StatReturnsLenAndAbort :=
  ⟨fun w => decode_eq_ok_iff_eq_rowValue w .stat rfl rfl, fun s => ⟨statusView s, rfl, statusView_extractLsb'_len s,
    statusView_getLsbD_16 s, fun _ => statusView_getLsbD_of_ge s⟩⟩

/-! ### NOP -/

/-- A word with `op` 0 and another bit set has a reserved bit set (40_accumulator_control.md R60). -/
theorem exists_decode_eq_error_of_op_zero {w : Word} (hop : w.toNat / 2 ^ 28 = 0) (hw : w ≠ 0) :
    ∃ why, decode w = .error why := by
  have hpos : w.toNat ≠ 0 := fun h => hw (BitVec.eq_of_toNat_eq h)
  exact (exists_decode_eq_error_iff w).mpr (.inr (.inl ⟨.inl hop, by omega⟩))

/-- Settles O1: the word by its row, the other words of `op` 0 by their reserved bits. -/
theorem nopOnlyResponds : Obligations.NopOnlyResponds :=
  ⟨fun w => decode_eq_ok_iff_eq_rowValue w .nop rfl rfl, fun _ => exists_decode_eq_error_of_op_zero, fun _ => rfl⟩

end Sys2Proof.Machine
end

section
/-! PROOFS. The armor append commands `PUSH` and `PAD` (spec/41_armor_append.md). -/

namespace Sys2Proof

/-- The number of a word with a character operand, from its fields (30_encoding.md R42, R44). -/
theorem toNat_eq_iff_of_character (w : Word) (op : BitVec 4) (ch : Byte) :
    w.toNat = op.toNat * 2 ^ 28 + ch.toNat ↔ opField w = op ∧ slice w 8 20 = 0 ∧ chField w = ch := by
  rw [← BitVec.toNat_inj, ← BitVec.toNat_inj (x := chField w), opField_toNat, slice_eq_zero_iff, chField, slice_toNat]
  have := w.isLt
  have := ch.isLt
  omega

theorem decode_eq_push_iff (w : Word) (ch : Byte) :
    decode w = .ok (.push ch) ↔ w.toNat = 0x20000000 + ch.toNat := by
  rw [decode_eq_ok_iff_fields]
  simpa [Instr.op, Instr.reservedZero, Instr.readFrom] using (toNat_eq_iff_of_character w 2 ch).symm

theorem decode_eq_pad_iff (w : Word) (ch : Byte) :
    decode w = .ok (.pad ch) ↔ w.toNat = 0x30000000 + ch.toNat := by
  rw [decode_eq_ok_iff_fields]
  simpa [Instr.op, Instr.reservedZero, Instr.readFrom] using (toNat_eq_iff_of_character w 3 ch).symm

end Sys2Proof

namespace Sys2Proof.Machine

/-! ### PUSH -/

theorem execPush_of_not_inAlphabet {s : State} {ch : Byte} (ha : s.abort = false) (hc : inAlphabet ch = false) :
    execPush ch s = .next (raiseFault .badChar s) := by
  simp [execPush, ha, hc]

theorem execPush_of_overflows {s : State} {ch : Byte} (ha : s.abort = false) (hc : inAlphabet ch = true)
    (hl : s.cfg.capBits < s.len.toNat + 6) : execPush ch s = .next (raiseFault .ovf s) := by
  simp [execPush, ha, hc, hl]

/-- The cells of an append: the bits of the value, most significant first, from `len` on (20_memory.md R21). -/
theorem bitAt_appendSextet (v : Sextet) (s : State) {k : Nat} (hk : k < 6) :
    (appendSextet v s).buf.bitAt (s.len.toNat + k) = v.getLsbD (5 - k) := by
  rw [appendSextet_buf, bitAt_write, if_pos (by omega), Nat.add_sub_cancel_left]

theorem bitAt_appendSextet_of_outside (v : Sextet) (s : State) {i : Nat}
    (hi : i < s.len.toNat ∨ s.len.toNat + 6 ≤ i) : (appendSextet v s).buf.bitAt i = s.buf.bitAt i := by
  rw [appendSextet_buf, bitAt_write, if_neg (by omega)]

theorem armor_getLsbD (ch : Byte) {j : Nat} (hj : j < 6) : (armor ch).getLsbD j = (armorNumber ch).testBit j := by
  rw [armor, BitVec.getLsbD_ofNat, decide_eq_true hj, Bool.true_and]

theorem armor_setWidth {ch : Byte} (hc : inAlphabet ch = true) :
    (armor ch).setWidth 32 = BitVec.ofNat 32 (armorNumber ch) := by
  rw [← armor_toNat hc, BitVec.ofNat_toNat]

/-- Settles O4: the word by its fields, the faults by the test each fails, the append by its cells and its `len`. -/
theorem pushAppendsOneArmorCharacter : Obligations.PushAppendsOneArmorCharacter := by
  refine ⟨decode_eq_push_iff, fun s ch => ⟨execPush_of_abort ch, fun ha hc => ?_, fun ha hc hl => ?_,
    fun ha hc hl => ⟨_, execPush_of_fits ha hc hl, fun k hk => ?_, fun i hi => ?_, ?_, ha, rfl, rfl, rfl, ?_⟩⟩⟩
  · exact execPush_of_not_inAlphabet ha hc
  · exact execPush_of_overflows ha hc hl
  · exact (bitAt_appendSextet _ s hk).trans (armor_getLsbD ch (by omega))
  · exact bitAt_appendSextet_of_outside _ s hi
  · exact appendSextet_len_toNat (armor ch) s hl
  · rw [respond_responses, appendSextet_responses, armor_setWidth hc]

/-! ### The aborted condition -/

theorem runEvents_command_cons {w : Word} {s t : State} (rest : List Event) (h : runWord w s = .next t) :
    runEvents (.command w :: rest) s = runEvents rest t := by
  simp only [runEvents, takeEvent, h]

theorem runCommands_cons {i : Instr} {s t : State} (rest : List Instr) (h : exec i s = .next t) :
    runCommands (i :: rest) s = runCommands rest t := by
  simp only [runCommands, h]

theorem runWord_of_ok {w : Word} {i : Instr} (s : State) (h : decode w = .ok i) : runWord w s = exec i s := by
  simp only [runWord, h]

/-- `s` became `t`, which holds the same bits with the latch set: a sentence that failed and was not rolled back
(41_armor_append.md R72). -/
structure HeldAborted (s t : State) : Prop where
  buf : t.buf = s.buf
  len : t.len = s.len
  abort : t.abort = true
  cfg : t.cfg = s.cfg

theorem HeldAborted.trans {s t u : State} (hst : HeldAborted s t) (htu : HeldAborted t u) : HeldAborted s u :=
  ⟨htu.buf.trans hst.buf, htu.len.trans hst.len, htu.abort, htu.cfg.trans hst.cfg⟩

/-- A `PUSH` that faults sets the latch and writes nothing else (41_armor_append.md R70). -/
theorem execPush_heldAborted {s : State} {ch : Byte} (ha : s.abort = false)
    (hf : inAlphabet ch = false ∨ s.cfg.capBits < s.len.toNat + 6) :
    ∃ t, execPush ch s = .next t ∧ HeldAborted s t := by
  cases hc : inAlphabet ch with
  | false => exact ⟨_, execPush_of_not_inAlphabet ha hc, rfl, rfl, rfl, rfl⟩
  | true =>
    have hl := hf.resolve_left (by simp [hc])
    exact ⟨_, execPush_of_overflows ha hc hl, rfl, rfl, rfl, rfl⟩

/-- With the latch set no command but `CLR` writes a cell or `len`: the two other writes need the latch clear. -/
theorem exec_of_abort_buf_len {i : Instr} {s t : State} (h : exec i s = .next t) (ha : s.abort = true)
    (hi : i ≠ .clr) : t.buf = s.buf ∧ t.len = s.len := by
  rcases exec_cases h with ⟨_, rfl⟩ | ⟨_, rfl⟩ | ⟨hclr, -⟩ | ⟨_, -, hf, -⟩ | ⟨_, _, -, hf, -⟩
  · exact ⟨rfl, rfl⟩
  · exact ⟨rfl, rfl⟩
  · exact absurd hclr hi
  · simp [ha] at hf
  · simp [ha] at hf

/-- A command that does not clear the latch keeps the aborted condition, with what is held. -/
theorem exec_heldAborted {i : Instr} {s t : State} (h : exec i s = .next t) (ha : s.abort = true)
    (hi : ¬ clearsLatch i) : HeldAborted s t := by
  obtain ⟨hbuf, hlen⟩ := exec_of_abort_buf_len h ha fun hclr => hi (.inl hclr)
  obtain ⟨hcfg, -, -⟩ := exec_frame h
  exact ⟨hbuf, hlen, (exec_abort_iff h).mpr (.inr ⟨ha, hi⟩), hcfg⟩

/-- `exec_heldAborted` for a word: an illegal one keeps everything. -/
theorem runWord_heldAborted {w : Word} {s t : State} (h : runWord w s = .next t) (ha : s.abort = true)
    (hw : ∀ i, decode w = .ok i → ¬ clearsLatch i) : HeldAborted s t := by
  rcases runWord_cases h with ⟨i, hd, hi⟩ | ⟨_, -, rfl⟩
  · exact exec_heldAborted hi ha (hw i hd)
  · exact ⟨rfl, rfl, ha, rfl⟩

/-- Words that do not clear the latch keep the aborted condition, however many (41_armor_append.md R72). -/
theorem runEvents_heldAborted {ws : List Word} {s : State} (ha : s.abort = true)
    (hws : ∀ w ∈ ws, ∀ i, decode w = .ok i → ¬ clearsLatch i) :
    ∃ t, runEvents (ws.map Event.command) s = .next t ∧ HeldAborted s t := by
  induction ws generalizing s with
  | nil => exact ⟨s, rfl, rfl, rfl, ha, rfl⟩
  | cons w ws ih =>
    obtain ⟨hw, hrest⟩ := List.forall_mem_cons.mp hws
    obtain ⟨u, hu⟩ := runWord_completes w s
    have hsu := runWord_heldAborted hu ha hw
    obtain ⟨t, ht, hut⟩ := ih hsu.abort hrest
    exact ⟨t, (runEvents_command_cons _ hu).trans ht, hsu.trans hut⟩

theorem runCommands_push_of_abort {s : State} (cs : List Byte) (ha : s.abort = true) :
    runCommands (cs.map Instr.push) s =
      .next { s with responses := s.responses ++ List.replicate cs.length ⟨.aborted, 0⟩ } := by
  induction cs generalizing s with
  | nil => simp [runCommands]
  | cons c cs ih =>
    rw [List.map_cons, runCommands_cons (i := .push c) _ (execPush_of_abort c ha),
      ih (s := raiseFault .abortedPush s) ha, raiseFault_responses, List.append_assoc]
    rfl

/-- Settles O6: the faulting `PUSH` brings the aborted condition, the words after it keep it, and in it every `PUSH` is
skipped. -/
theorem pushesAreSkippedAfterAFaultingPush : Obligations.PushesAreSkippedAfterAFaultingPush := by
  refine ⟨fun s p ch ws ha hp hf hws => ?_, fun s cs => runCommands_push_of_abort cs⟩
  obtain ⟨u, hu, hsu⟩ := execPush_heldAborted ha hf
  have hkeep : ∀ w ∈ ws, ∀ i, decode w = .ok i → ¬ clearsLatch i := by
    intro w hw i hd hi
    obtain ⟨hclr, hpad⟩ := hws w hw
    rcases hi with rfl | ⟨d, rfl⟩
    · exact hclr hd
    · exact hpad d hd
  obtain ⟨t, ht, hut⟩ := runEvents_heldAborted hsu.abort hkeep
  obtain ⟨hbuf, hlen, habort, hcfg⟩ := hsu.trans hut
  refine ⟨t, ?_, hbuf, hlen, habort, hcfg, fun w c hd => ?_⟩
  · exact (runEvents_command_cons _ ((runWord_of_ok s hp).trans hu)).trans ht
  · exact (runWord_of_ok t hd).trans (execPush_of_abort c habort)

/-! ### PAD -/

theorem padCount_of_digit {ch : Byte} (hlo : 0x30 ≤ ch.toNat) (hhi : ch.toNat ≤ 0x39) :
    padCount ch = ch.toNat - 48 := by
  simp [padCount, padDigit, hlo, hhi]

theorem padCount_of_not_digit {ch : Byte} (h : ch.toNat < 0x30 ∨ 0x39 < ch.toNat) : padCount ch = 0 := by
  rw [padCount, padDigit, if_neg (by omega), Option.getD_none]

/-- A `PAD` that asks for more than is held faults (41_armor_append.md R73). -/
theorem execPad_of_gt {s : State} {ch : Byte} (ha : s.abort = false) (hp : s.len.toNat < padCount ch) :
    execPad ch s = .next (raiseFault .rng s) := by
  unfold padCount at hp
  cases hd : padDigit ch with
  | none => simp [hd] at hp
  | some p =>
    have hp : p > s.len.toNat := by simpa [hd] using hp
    simp [execPad, ha, hd, hp]

/-- Settles O7: the word by its fields, then the aborted `PAD`, the one out of range, the cut, and the non-numeric
character, which cuts 0 bits. -/
theorem padTruncates : Obligations.PadTruncates := by
  refine ⟨decode_eq_pad_iff, fun s ch => ⟨fun ha => ?_, fun ha hlo hhi hp => ?_,
    fun ha hlo hhi hp => ⟨(cutBits (padCount ch) s).len, ?_, ?_⟩, fun ha hc => ?_⟩⟩
  · exact execPad_of_abort ch ha
  · exact execPad_of_gt ha (by rwa [padCount_of_digit hlo hhi])
  · rw [cutBits_len_toNat, padCount_of_digit hlo hhi]
  · rw [BitVec.ofNat_toNat]
    exact execPad_of_le ha (by rwa [padCount_of_digit hlo hhi])
  · have hcut : execPad ch s = _ := execPad_of_le ha (by simp [padCount_of_not_digit hc])
    rw [padCount_of_not_digit hc, cutBits_zero] at hcut
    rw [BitVec.ofNat_toNat]
    exact hcut

end Sys2Proof.Machine
end

section
/-! PROOFS. The bit-field read commands `RDU` and `RDS` (spec/42_bitfield_read.md). -/

namespace Sys2Proof

/-- The number of a word with the two operands of a read, from its fields (30_encoding.md R42, R44). -/
theorem toNat_eq_iff_of_read (w : Word) (op : BitVec 4) (off : BitCount) (n : FieldWidth) :
    w.toNat = op.toNat * 2 ^ 28 + n.toNat * 2 ^ 22 + off.toNat ↔
      opField w = op ∧ slice w 16 6 = 0 ∧ offField w = off ∧ nField w = n := by
  rw [← BitVec.toNat_inj, ← BitVec.toNat_inj (x := offField w), ← BitVec.toNat_inj (x := nField w), opField_toNat,
    slice_eq_zero_iff, offField, nField, slice_toNat, slice_toNat]
  have := w.isLt
  have := off.isLt
  have := n.isLt
  omega

theorem decode_eq_rdu_iff (w : Word) (off : BitCount) (n : FieldWidth) :
    decode w = .ok (.rdu off n) ↔ w.toNat = 0x40000000 + n.toNat * 2 ^ 22 + off.toNat := by
  rw [decode_eq_ok_iff_fields]
  simpa [Instr.op, Instr.reservedZero, Instr.readFrom] using (toNat_eq_iff_of_read w 4 off n).symm

theorem decode_eq_rds_iff (w : Word) (off : BitCount) (n : FieldWidth) :
    decode w = .ok (.rds off n) ↔ w.toNat = 0x50000000 + n.toNat * 2 ^ 22 + off.toNat := by
  rw [decode_eq_ok_iff_fields]
  simpa [Instr.op, Instr.reservedZero, Instr.readFrom] using (toNat_eq_iff_of_read w 5 off n).symm

end Sys2Proof

namespace Sys2Proof.Machine

/-! ### The response to a read -/

theorem readResponse_of_valid {s : State} {off : BitCount} {n : FieldWidth} (data : Word) (hpos : 1 ≤ n.toNat)
    (hn : n.toNat ≤ 32) (hfit : off.toNat + n.toNat ≤ s.len.toNat) : readResponse s off n data = ⟨.ok, data⟩ :=
  if_pos ((readValid_iff s off n).mpr ⟨hpos, hn, hfit⟩)

theorem readResponse_of_invalid {s : State} {off : BitCount} {n : FieldWidth} (data : Word)
    (h : n.toNat < 1 ∨ 32 < n.toNat ∨ s.len.toNat < off.toNat + n.toNat) :
    readResponse s off n data = ⟨.rng, 0⟩ := by
  refine if_neg fun hv => ?_
  obtain ⟨hpos, hn, hfit⟩ := (readValid_iff s off n).mp hv
  omega

/-- A read answers `OK` or the fault `RNG`, and `OK` exactly when it is valid (42_bitfield_read.md R82). -/
theorem readResponse_status (s : State) (off : BitCount) (n : FieldWidth) (data : Word) :
    ((readResponse s off n data).status = .ok ↔
      1 ≤ n.toNat ∧ n.toNat ≤ 32 ∧ off.toNat + n.toNat ≤ s.len.toNat) ∧
    ((readResponse s off n data).status ≠ .ok → readResponse s off n data = ⟨.rng, 0⟩) := by
  rw [← readValid_iff, readResponse]
  cases readValid s off n with
  | false => simp
  | true => simp

/-- Settles O10: the two reads differ in their data only, and the status is that of `readResponse`. -/
theorem readsFaultExactlyOutsideTheContent : Obligations.ReadsFaultExactlyOutsideTheContent := by
  rintro s off n i (rfl | rfl)
  · exact ⟨_, execRdu_eq off n s, readResponse_status s off n _⟩
  · exact ⟨_, execRds_eq off n s, readResponse_status s off n _⟩

/-! ### The bits of the data -/

/-- The value of a field as a vector of its own width; `RDU` and `RDS` extend it to 32 bits. -/
def fieldBits (m : Memory) (off n : Nat) : BitVec n := BitVec.ofNat n (m.read off n)

/-- Cell `k` of a field is bit `n - 1 - k` of its value (20_memory.md R22). -/
theorem fieldBits_getLsbD (m : Memory) (off : Nat) {n k : Nat} (hk : k < n) :
    (fieldBits m off n).getLsbD (n - 1 - k) = m.bitAt (off + k) := by
  have hlt : n - 1 - k < n := by omega
  have hcell : n - 1 - (n - 1 - k) = k := by omega
  rw [fieldBits, BitVec.getLsbD_ofNat, read_testBit, hcell]
  simp [hlt]

theorem fieldBits_toNat (m : Memory) (off n : Nat) : (fieldBits m off n).toNat = m.read off n :=
  Nat.mod_eq_of_lt (read_lt m off n)

/-- `RDU` zero-extends the field (42_bitfield_read.md R80). -/
theorem unsignedData_eq_setWidth (m : Memory) (off n : Nat) :
    unsignedData (m.read off n) = (fieldBits m off n).setWidth 32 := by
  rw [unsignedData, ← fieldBits_toNat, BitVec.ofNat_toNat]

/-- `RDS` sign-extends the field (42_bitfield_read.md R81). -/
theorem signedData_eq_signExtend (m : Memory) (off : Nat) {n : Nat} (hpos : 1 ≤ n) :
    signedData (m.bitAt off) (m.read off n) n = (fieldBits m off n).signExtend 32 := by
  rw [signedData, ← toInt_read m off hpos, BitVec.signExtend, fieldBits]

theorem unsignedData_getLsbD (m : Memory) (off : Nat) {n k : Nat} (hn : n ≤ 32) (hk : k < n) :
    (unsignedData (m.read off n)).getLsbD (n - 1 - k) = m.bitAt (off + k) := by
  have hlt : n - 1 - k < 32 := by omega
  rw [unsignedData_eq_setWidth, BitVec.getLsbD_setWidth, fieldBits_getLsbD m off hk]
  simp [hlt]

theorem unsignedData_getLsbD_of_ge (m : Memory) (off : Nat) {n k : Nat} (hk : n ≤ k) :
    (unsignedData (m.read off n)).getLsbD k = false := by
  rw [unsignedData_eq_setWidth, BitVec.getLsbD_setWidth, BitVec.getLsbD_of_ge _ _ hk, Bool.and_false]

theorem signedData_getLsbD (m : Memory) (off : Nat) {n k : Nat} (hn : n ≤ 32) (hk : k < n) :
    (signedData (m.bitAt off) (m.read off n) n).getLsbD (n - 1 - k) = m.bitAt (off + k) := by
  have hlt : n - 1 - k < 32 := by omega
  have hlow : n - 1 - k < n := by omega
  rw [signedData_eq_signExtend m off (by omega), BitVec.getLsbD_signExtend, if_pos hlow, fieldBits_getLsbD m off hk]
  simp [hlt]

/-- Above the field every bit is the field's first cell. -/
theorem signedData_getLsbD_of_ge (m : Memory) (off : Nat) {n k : Nat} (hpos : 1 ≤ n) (hk : n ≤ k) (hk' : k < 32) :
    (signedData (m.bitAt off) (m.read off n) n).getLsbD k = m.bitAt off := by
  rw [signedData_eq_signExtend m off hpos, BitVec.getLsbD_signExtend, if_neg (by omega), fieldBits, msb_read m off hpos]
  simp [hk']

/-! ### The two commands -/

/-- Settles O8: the word by its fields, the response by `readResponse`, the data by its bits. -/
theorem rduReadsUnsignedField : Obligations.RduReadsUnsignedField := by
  refine ⟨decode_eq_rdu_iff, fun s off n => ⟨fun hpos hn hfit =>
    ⟨unsignedData (s.buf.read off.toNat n.toNat), ?_, fun k hk => ?_, fun k hk => ?_⟩, fun hout => ?_⟩⟩
  · rw [← readResponse_of_valid _ hpos hn hfit]
    exact execRdu_eq off n s
  · exact unsignedData_getLsbD s.buf off.toNat hn hk
  · exact unsignedData_getLsbD_of_ge s.buf off.toNat hk
  · rw [← readResponse_of_invalid _ hout]
    exact execRdu_eq off n s

/-- Settles O9: as O8, with the sign bits and the signed value of the data. -/
theorem rdsReadsSignedField : Obligations.RdsReadsSignedField := by
  refine ⟨decode_eq_rds_iff, fun s off n => ⟨fun hpos hn hfit =>
    ⟨signedData (s.buf.bitAt off.toNat) (s.buf.read off.toNat n.toNat) n.toNat, ?_, fun k hk => ?_,
      fun k hk hk' => ?_, ?_⟩, fun hout => ?_⟩⟩
  · rw [← readResponse_of_valid _ hpos hn hfit]
    exact execRds_eq off n s
  · exact signedData_getLsbD s.buf off.toNat hn hk
  · exact signedData_getLsbD_of_ge s.buf off.toNat hpos hk hk'
  · exact signedData_toInt s.buf off.toNat hpos hn
  · rw [← readResponse_of_invalid _ hout]
    exact execRds_eq off n s

end Sys2Proof.Machine
end

section
/-! PROOFS. The causes of the faults (spec/60_exceptions.md R90, R93), what a fault writes (R94), and the aborted
condition (R95). -/

namespace Sys2Proof.Machine

/-! ### The cause of a fault -/

/-- In the state `s` the word `w` has the cause of the fault: the conditions of 60_exceptions.md R90, each with the
negation of the tests that R93 puts before it. -/
def Cause.arises (w : Word) (s : State) : Cause → Prop
  | .ovf => s.abort = false ∧ ∃ ch, decode w = .ok (.push ch) ∧ inAlphabet ch = true ∧
      s.cfg.capBits < s.len.toNat + 6
  | .badChar => s.abort = false ∧ ∃ ch, decode w = .ok (.push ch) ∧ inAlphabet ch = false
  | .abortedPush => s.abort = true ∧ ∃ ch, decode w = .ok (.push ch)
  | .abortedPad => s.abort = true ∧ ∃ ch, decode w = .ok (.pad ch)
  | .rng =>
      (∃ off n, (decode w = .ok (.rdu off n) ∨ decode w = .ok (.rds off n)) ∧
        ¬ (1 ≤ n.toNat ∧ n.toNat ≤ 32 ∧ off.toNat + n.toNat ≤ s.len.toNat)) ∨
      (s.abort = false ∧ ∃ ch, decode w = .ok (.pad ch) ∧ 0x30 ≤ ch.toNat ∧ ch.toNat ≤ 0x39 ∧
        s.len.toNat < ch.toNat - 48)
  | .ill => ∃ why, decode w = .error why

theorem Cause.status_eq_aborted_iff (c : Cause) : c.status = .aborted ↔ c = .abortedPush ∨ c = .abortedPad := by
  cases c <;> decide

/-- Only `ABORTED` is the status of two causes (60_exceptions.md R94). -/
theorem Cause.eq_of_status_eq {b c : Cause} : b.status = c.status → c.status ≠ .aborted → b = c := by
  cases b <;> cases c <;> decide

theorem padDigit_eq_some_iff (ch : Byte) (p : Nat) :
    padDigit ch = some p ↔ (0x30 ≤ ch.toNat ∧ ch.toNat ≤ 0x39) ∧ ch.toNat - 48 = p := by
  rw [padDigit, Option.ite_none_right_eq_some, Option.some_inj]

theorem execRdu_of_invalid {s : State} {off : BitCount} {n : FieldWidth} (hv : ¬ readValid s off n = true) :
    execRdu off n s = .next (raiseFault .rng s) := if_neg hv

theorem execRds_of_invalid {s : State} {off : BitCount} {n : FieldWidth} (hv : ¬ readValid s off n = true) :
    execRds off n s = .next (raiseFault .rng s) := if_neg hv

/-- A cause that arises is the fault taken; so at most one arises. -/
theorem runWord_of_arises {c : Cause} {w : Word} {s : State} (hc : c.arises w s) :
    runWord w s = .next (raiseFault c s) := by
  cases c with
  | ovf =>
    obtain ⟨ha, ch, hd, halpha, hl⟩ := hc
    exact (runWord_of_ok s hd).trans (execPush_of_overflows ha halpha hl)
  | badChar =>
    obtain ⟨ha, ch, hd, halpha⟩ := hc
    exact (runWord_of_ok s hd).trans (execPush_of_not_inAlphabet ha halpha)
  | abortedPush =>
    obtain ⟨ha, ch, hd⟩ := hc
    exact (runWord_of_ok s hd).trans (execPush_of_abort ch ha)
  | abortedPad =>
    obtain ⟨ha, ch, hd⟩ := hc
    exact (runWord_of_ok s hd).trans (execPad_of_abort ch ha)
  | rng =>
    rcases hc with ⟨off, n, hd, hv⟩ | ⟨ha, ch, hd, hlo, hhi, hl⟩
    · rw [← readValid_iff] at hv
      rcases hd with hd | hd
      · exact (runWord_of_ok s hd).trans (execRdu_of_invalid hv)
      · exact (runWord_of_ok s hd).trans (execRds_of_invalid hv)
    · exact (runWord_of_ok s hd).trans (execPad_of_gt ha (by rwa [padCount_of_digit hlo hhi]))
  | ill =>
    obtain ⟨why, hd⟩ := hc
    exact runWord_of_error s hd

theorem arises_rng_of_invalid_read {w : Word} {s : State} {off : BitCount} {n : FieldWidth}
    (hd : decode w = .ok (.rdu off n) ∨ decode w = .ok (.rds off n)) (hv : readValid s off n = false) :
    Cause.rng.arises w s :=
  .inl ⟨off, n, hd, (readValid_iff s off n).not.mp (ne_true_of_eq_false hv)⟩

/-- Every word takes the fault whose cause arises, or answers `OK`. -/
theorem runWord_fault_or_ok {w : Word} {s t : State} (h : runWord w s = .next t) :
    (∃ c : Cause, c.arises w s ∧ t = raiseFault c s) ∨ ∃ d, t.responses = s.responses ++ [⟨.ok, d⟩] := by
  rcases runWord_cases h with ⟨i, hd, hi⟩ | ⟨why, hd, rfl⟩
  · cases i with
    | nop => cases hi; exact .inr ⟨_, rfl⟩
    | clr => cases hi; exact .inr ⟨_, rfl⟩
    | stat => cases hi; exact .inr ⟨_, rfl⟩
    | push ch =>
      rcases execPush_cases hi with ⟨ha, rfl⟩ | ⟨ha, hc, rfl⟩ | ⟨ha, hc, hl, rfl⟩ | ⟨-, -, -, rfl⟩
      · exact .inl ⟨.abortedPush, ⟨ha, ch, hd⟩, rfl⟩
      · exact .inl ⟨.badChar, ⟨ha, ch, hd, hc⟩, rfl⟩
      · exact .inl ⟨.ovf, ⟨ha, ch, hd, hc, hl⟩, rfl⟩
      · exact .inr ⟨_, rfl⟩
    | pad ch =>
      rcases execPad_cases hi with ⟨ha, rfl⟩ | ⟨-, -, rfl⟩ | ⟨p, ha, hp, hl, rfl⟩ | ⟨p, -, -, -, rfl⟩
      · exact .inl ⟨.abortedPad, ⟨ha, ch, hd⟩, rfl⟩
      · exact .inr ⟨_, rfl⟩
      · obtain ⟨⟨hlo, hhi⟩, rfl⟩ := (padDigit_eq_some_iff ch p).mp hp
        exact .inl ⟨.rng, .inr ⟨ha, ch, hd, hlo, hhi, hl⟩, rfl⟩
      · exact .inr ⟨_, rfl⟩
    | rdu off n =>
      rcases execRdu_cases hi with ⟨-, rfl⟩ | ⟨hv, rfl⟩
      · exact .inr ⟨_, rfl⟩
      · exact .inl ⟨.rng, arises_rng_of_invalid_read (.inl hd) hv, rfl⟩
    | rds off n =>
      rcases execRds_cases hi with ⟨-, rfl⟩ | ⟨hv, rfl⟩
      · exact .inr ⟨_, rfl⟩
      · exact .inl ⟨.rng, arises_rng_of_invalid_read (.inr hd) hv, rfl⟩
  · exact .inl ⟨.ill, ⟨why, hd⟩, rfl⟩

/-! ### The answer of a fault -/

section
variable {w : Word} {s t : State} {r : Response} (h : runWord w s = .next t)
  (hr : t.responses = s.responses ++ [r])
include h hr

/-- A response other than `OK` is that of a cause that arose. -/
theorem exists_cause_of_status_ne_ok (hs : r.status ≠ .ok) :
    ∃ c : Cause, c.arises w s ∧ t = raiseFault c s ∧ r = ⟨c.status, 0⟩ := by
  rcases runWord_fault_or_ok h with ⟨c, hc, rfl⟩ | ⟨d, hok⟩
  · exact ⟨c, hc, rfl, by simpa using hr.symm⟩
  · have hrd : r = ⟨.ok, d⟩ := by simpa using hr.symm.trans hok
    exact absurd (congrArg Response.status hrd) hs

/-- A fault is reported exactly when a cause with its status arises. -/
theorem status_eq_iff_exists_arises {x : Status} (hx : x ≠ .ok) :
    r.status = x ↔ ∃ c : Cause, c.arises w s ∧ c.status = x := by
  constructor
  · rintro rfl
    obtain ⟨c, hc, -, rfl⟩ := exists_cause_of_status_ne_ok h hr hx
    exact ⟨c, hc, rfl⟩
  · rintro ⟨c, hc, rfl⟩
    cases h.symm.trans (runWord_of_arises hc)
    have hrc : r = ⟨c.status, 0⟩ := by simpa using hr.symm
    rw [hrc]

theorem status_eq_aborted_iff : r.status = .aborted ↔
    s.abort = true ∧ ((∃ ch, decode w = .ok (.push ch)) ∨ ∃ ch, decode w = .ok (.pad ch)) := by
  rw [status_eq_iff_exists_arises h hr (by decide)]
  simp [Cause.status_eq_aborted_iff, and_or_left, exists_or, Cause.arises]

/-- A status other than `ABORTED` is reported exactly when its one cause arises. -/
theorem status_eq_iff_arises {c : Cause} (hc : c.status ≠ .aborted) : r.status = c.status ↔ c.arises w s := by
  rw [status_eq_iff_exists_arises h hr c.status_ne_ok]
  constructor
  · rintro ⟨b, hb, hbc⟩
    exact Cause.eq_of_status_eq hbc hc ▸ hb
  · exact fun hb => ⟨c, hb, rfl⟩

end

/-- The latch column of the table of 60_exceptions.md R94, by the status of a cause that arises. -/
theorem abortAfter_of_arises {c : Cause} {w : Word} {s : State} (hc : c.arises w s) :
    (c.status = .ovf ∨ c.status = .badChar → c.abortAfter s.abort = true) ∧
    (c.status = .aborted → (c.abortAfter s.abort = true ↔ ∃ ch, decode w = .ok (.push ch))) ∧
    (c.status = .rng ∨ c.status = .ill → c.abortAfter s.abort = s.abort) := by
  cases c with
  | abortedPush =>
    obtain ⟨ha, hpush⟩ := hc
    simp [Cause.status, Cause.abortAfter, ha, hpush]
  | abortedPad =>
    obtain ⟨-, ch, hpad⟩ := hc
    simp [Cause.status, Cause.abortAfter, hpad]
  | ovf => simp [Cause.status, Cause.abortAfter]
  | badChar => simp [Cause.status, Cause.abortAfter]
  | rng => simp [Cause.status, Cause.abortAfter]
  | ill => simp [Cause.status, Cause.abortAfter]

/-- Settles O21: the fault is `raiseFault` of its cause, and its latch that of `abortAfter_of_arises`. -/
theorem aFaultWritesOnlyTheLatch : Obligations.AFaultWritesOnlyTheLatch := by
  intro w s t r h hr hs
  obtain ⟨c, hc, rfl, rfl⟩ := exists_cause_of_status_ne_ok h hr hs
  obtain ⟨hset, haborted, hkept⟩ := abortAfter_of_arises hc
  refine ⟨rfl, hset, fun hst => (haborted hst).mpr, fun hst ⟨ch, hpad⟩ => ?_, hkept⟩
  refine eq_false_of_ne_true fun ht => ?_
  obtain ⟨ch', hpush⟩ := (haborted hst).mp ht
  simp [hpad] at hpush

/-- Settles O20: each status by its cause; on `OK` nothing is left to say, and on a fault the cause that arose gives
the frame and the latch. -/
theorem eachFaultHasExactlyItsCause : Obligations.EachFaultHasExactlyItsCause := by
  intro w s t r h hr
  refine ⟨status_eq_iff_arises h hr (c := .ill) (by decide), status_eq_aborted_iff h hr,
    status_eq_iff_arises h hr (c := .badChar) (by decide), status_eq_iff_arises h hr (c := .ovf) (by decide),
    status_eq_iff_arises h hr (c := .rng) (by decide), ?_⟩
  by_cases hs : r.status = .ok
  · simp [hs, Status.code]
  · obtain ⟨c, hc, rfl, rfl⟩ := exists_cause_of_status_ne_ok h hr hs
    obtain ⟨hset, haborted, hkept⟩ := abortAfter_of_arises hc
    exact ⟨fun _ => rfl, hset, haborted, hkept, fun _ => rfl, rfl, rfl, rfl, rfl, rfl⟩

/-! ### The aborted condition -/

/-- A command that does the same with the latch clear, and keeps it set, works normally in the aborted condition. -/
theorem runWord_as_with_latch_clear {w : Word} {i : Instr} {s t : State} (hd : decode w = .ok i)
    (hi : exec i { s with abort := false } = .next { t with abort := false }) (ht : t.abort = true) :
    ∃ u, runWord w { s with abort := false } = .next u ∧ t = { u with abort := true } :=
  ⟨_, (runWord_of_ok _ hd).trans hi, by rw [← ht]⟩

/-- Settles O22: `PUSH` and `PAD` test the latch first; no other command reads it but `STAT`, which reports it. -/
theorem commandsInTheAbortedCondition : Obligations.CommandsInTheAbortedCondition := by
  intro w s t ha h
  rcases runWord_cases h with ⟨i, hd, hi⟩ | ⟨why, hd, rfl⟩
  · rw [hd]
    cases i with
    | nop => cases hi; rfl
    | clr => cases hi; exact ⟨rfl, rfl, bitAt_nil, rfl⟩
    | push ch => cases hi.symm.trans (execPush_of_abort ch ha); rfl
    | pad ch => cases hi.symm.trans (execPad_of_abort ch ha); rfl
    | rdu off n => exact runWord_as_with_latch_clear hd (execRdu_with_abort false hi) ((execRdu_abort hi).trans ha)
    | rds off n => exact runWord_as_with_latch_clear hd (execRds_with_abort false hi) ((execRds_abort hi).trans ha)
    | stat => cases hi; exact ⟨statusView s, rfl, by simp [statusView_toNat, ha]⟩
  · rw [hd]
    rfl

end Sys2Proof.Machine
end

section
/-! PROOFS. The encoder against the decoder (spec/30_encoding.md R42 to R45), the words of the assembler (R49), the
armor alphabet and the pad characters (R50 to R54), the status codes (R47). -/

namespace Sys2Proof

/-! ### Encoding and decoding -/

/-- Settles O27: a command without operands has its row's word; the others by the number of the encoded word, which is
the number the decoder asks for. -/
theorem decodeOfEncode : Obligations.DecodeOfEncode := by
  intro i
  cases i with
  | nop => rfl
  | clr => rfl
  | stat => rfl
  | push ch => exact (decode_eq_push_iff _ ch).mpr (encode_push_toNat ch)
  | pad ch => exact (decode_eq_pad_iff _ ch).mpr (encode_pad_toNat ch)
  | rdu off n => exact (decode_eq_rdu_iff _ off n).mpr (encode_rdu_toNat off n)
  | rds off n => exact (decode_eq_rds_iff _ off n).mpr (encode_rds_toNat off n)

/-- Settles O28: in a row without operands the word is the row's value; in the others the word and the encoding are one
number. -/
theorem encodeOfDecode : Obligations.EncodeOfDecode := by
  intro w i h
  cases i with
  | nop => exact ((decode_eq_ok_iff_eq_rowValue w .nop rfl rfl).mp h).symm
  | clr => exact ((decode_eq_ok_iff_eq_rowValue w .clr rfl rfl).mp h).symm
  | stat => exact ((decode_eq_ok_iff_eq_rowValue w .stat rfl rfl).mp h).symm
  | push ch => exact BitVec.eq_of_toNat_eq ((encode_push_toNat ch).trans ((decode_eq_push_iff w ch).mp h).symm)
  | pad ch => exact BitVec.eq_of_toNat_eq ((encode_pad_toNat ch).trans ((decode_eq_pad_iff w ch).mp h).symm)
  | rdu off n => exact BitVec.eq_of_toNat_eq ((encode_rdu_toNat off n).trans ((decode_eq_rdu_iff w off n).mp h).symm)
  | rds off n => exact BitVec.eq_of_toNat_eq ((encode_rds_toNat off n).trans ((decode_eq_rds_iff w off n).mp h).symm)

/-- Settles O31: the decoder evaluates on each word. -/
theorem writtenOutWordsDecode : Obligations.WrittenOutWordsDecode := ⟨rfl, rfl, rfl, rfl, rfl, rfl, rfl⟩

/-! ### The words of an operand in range -/

theorem encode_push_ofNat {c : Nat} (hc : c < 256) :
    encode (.push (BitVec.ofNat 8 c)) = BitVec.ofNat 32 (0x20000000 + c) := by
  rw [encode, BitVec.toNat_ofNat, Nat.mod_eq_of_lt hc]

theorem encode_pad_ofNat {c : Nat} (hc : c < 256) :
    encode (.pad (BitVec.ofNat 8 c)) = BitVec.ofNat 32 (0x30000000 + c) := by
  rw [encode, BitVec.toNat_ofNat, Nat.mod_eq_of_lt hc]

theorem encode_rdu_ofNat {off n : Nat} (hoff : off < 65536) (hn : n < 64) :
    encode (.rdu (BitVec.ofNat 16 off) (BitVec.ofNat 6 n)) = BitVec.ofNat 32 (0x40000000 + n * 2 ^ 22 + off) := by
  rw [encode, BitVec.toNat_ofNat, BitVec.toNat_ofNat, Nat.mod_eq_of_lt hoff, Nat.mod_eq_of_lt hn]

theorem encode_rds_ofNat {off n : Nat} (hoff : off < 65536) (hn : n < 64) :
    encode (.rds (BitVec.ofNat 16 off) (BitVec.ofNat 6 n)) = BitVec.ofNat 32 (0x50000000 + n * 2 ^ 22 + off) := by
  rw [encode, BitVec.toNat_ofNat, BitVec.toNat_ofNat, Nat.mod_eq_of_lt hoff, Nat.mod_eq_of_lt hn]

end Sys2Proof

namespace Sys2Proof.Machine

/-! ### Assembler lines -/

theorem assembleLine_eq_some {l : AsmLine} {ws : List Word} (h : l.wf = true) (hws : (expandLine l).map encode = ws) :
    assembleLine l = some ws := (if_pos h).trans (congrArg some hws)

theorem assembleLine_eq_singleton {l : AsmLine} {i : Instr} {w : Word} (h : l.wf = true) (hl : expandLine l = [i])
    (hw : encode i = w) : assembleLine l = some [w] := assembleLine_eq_some h (by rw [hl, List.map_singleton, hw])

theorem all_charCodeWf {cs : List Nat} (h : ∀ x ∈ cs, x < 256) : cs.all charCodeWf = true :=
  List.all_eq_true.mpr fun x hx => decide_eq_true (h x hx)

/-- The words of a string's characters, one `PUSH` each. -/
theorem map_encode_push {cs : List Nat} (h : ∀ x ∈ cs, x < 256) :
    ((cs.map (BitVec.ofNat 8)).map Instr.push).map encode = cs.map fun x => BitVec.ofNat 32 (0x20000000 + x) := by
  rw [List.map_map, List.map_map]
  exact List.map_congr_left fun x hx => encode_push_ofNat (h x hx)

/-- The words of a payload field and its pad field. -/
theorem map_encode_fieldCommands {cs : List Nat} {c : Nat} (h : ∀ x ∈ cs, x < 256) (hc : c < 256) :
    (fieldCommands (cs.map (BitVec.ofNat 8)) (BitVec.ofNat 8 c)).map encode =
      cs.map (fun x => BitVec.ofNat 32 (0x20000000 + x)) ++ [BitVec.ofNat 32 (0x30000000 + c)] := by
  rw [fieldCommands, List.map_append, map_encode_push h, List.map_singleton, encode_pad_ofNat hc]

/-- Settles O32: the operands in range make each line well formed, and the words are those of its expansion. -/
theorem assemblerLinesGiveTheirWords : Obligations.AssemblerLinesGiveTheirWords := by
  refine ⟨fun cs c hcs hc => ?_, fun off n hoff hn => ?_, rfl, rfl, rfl, rfl⟩
  · have hstr := all_charCodeWf hcs
    have hchr : charCodeWf c = true := decide_eq_true hc
    exact ⟨assembleLine_eq_singleton hchr rfl (encode_push_ofNat hc),
      assembleLine_eq_singleton hchr rfl (encode_pad_ofNat hc),
      assembleLine_eq_some hstr (map_encode_push hcs),
      assembleLine_eq_some (Bool.and_eq_true_iff.mpr ⟨hstr, hchr⟩) (map_encode_fieldCommands hcs hc),
      assembleLine_eq_some hstr (map_encode_fieldCommands (c := 0) hcs (by decide))⟩
  · have hoffWf : offsetWf off = true := decide_eq_true hoff
    have hread : (offsetWf off && widthWf n) = true := Bool.and_eq_true_iff.mpr ⟨hoffWf, decide_eq_true hn⟩
    exact ⟨assembleLine_eq_singleton hread rfl (encode_rdu_ofNat hoff hn),
      assembleLine_eq_singleton hread rfl (encode_rds_ofNat hoff hn),
      assembleLine_eq_singleton hoffWf rfl (encode_rdu_ofNat hoff (by decide))⟩

/-! ### The armor alphabet -/

theorem inAlphabet_iff (ch : Byte) : inAlphabet ch = true ↔
    (0x30 ≤ ch.toNat ∧ ch.toNat ≤ 0x57) ∨ (0x60 ≤ ch.toNat ∧ ch.toNat ≤ 0x77) := by
  rw [inAlphabet, Bool.or_eq_true, decide_eq_true_iff, decide_eq_true_iff]

theorem inAlphabet_eq_false_iff (ch : Byte) : inAlphabet ch = false ↔
    ch.toNat ≤ 0x2F ∨ (0x58 ≤ ch.toNat ∧ ch.toNat ≤ 0x5F) ∨ 0x78 ≤ ch.toNat := by
  rw [← Bool.not_eq_true, inAlphabet_iff]
  omega

/-- Settles O5: the codes by their ranges, their number by counting, and `BADCHAR` as the first test a `PUSH` of one
fails. -/
theorem invalidCharactersFaultBadChar : Obligations.InvalidCharactersFaultBadChar :=
  ⟨inAlphabet_eq_false_iff, rfl, fun _ _ => execPush_of_not_inAlphabet⟩

/-- The armor value in closed form: the second run of the alphabet starts 8 codes after the first ends. -/
theorem armor_toNat_eq {ch : Byte} (h : inAlphabet ch = true) :
    (armor ch).toNat = if ch.toNat ≤ 0x57 then ch.toNat - 48 else ch.toNat - 56 := by
  rw [armor_toNat h, armorNumber]
  rw [inAlphabet_iff] at h
  split_ifs <;> omega

/-- The character of an armor value (30_encoding.md R52). -/
def armorChar (v : Sextet) : Byte := BitVec.ofNat 8 (if v.toNat < 40 then v.toNat + 48 else v.toNat + 56)

theorem armorChar_toNat (v : Sextet) :
    (armorChar v).toNat = if v.toNat < 40 then v.toNat + 48 else v.toNat + 56 := by
  have := v.isLt
  rw [armorChar, BitVec.toNat_ofNat, Nat.mod_eq_of_lt]
  split <;> omega

theorem inAlphabet_armorChar (v : Sextet) : inAlphabet (armorChar v) = true := by
  have := v.isLt
  rw [inAlphabet_iff, armorChar_toNat]
  split <;> omega

theorem armor_armorChar (v : Sextet) : armor (armorChar v) = v := by
  apply BitVec.eq_of_toNat_eq
  rw [armor_toNat_eq (inAlphabet_armorChar v), armorChar_toNat]
  split_ifs <;> omega

theorem armorChar_armor {ch : Byte} (h : inAlphabet ch = true) : armorChar (armor ch) = ch := by
  apply BitVec.eq_of_toNat_eq
  rw [armorChar_toNat, armor_toNat_eq h]
  rw [inAlphabet_iff] at h
  split_ifs <;> omega

/-- Settles O25: `armorChar` is the inverse of `armor` on the alphabet. -/
theorem armorIsABijectionOnTheAlphabet : Obligations.ArmorIsABijectionOnTheAlphabet := by
  refine ⟨inAlphabet_iff, fun ch => armor_toNat_eq, fun v =>
    ⟨armorChar v, ⟨inAlphabet_armorChar v, armor_armorChar v⟩, ?_⟩⟩
  rintro ch ⟨hch, rfl⟩
  exact (armorChar_armor hch).symm

/-- Settles O26: the count by the two lemmas on digits, the digit by its range. -/
theorem padCharacterCounts : Obligations.PadCharacterCounts := by
  refine fun ch => ⟨fun ⟨hlo, hhi⟩ => ⟨padCount_of_digit hlo hhi, if_pos ⟨hlo, hhi⟩⟩,
    fun h => ⟨padCount_of_not_digit h, if_neg ?_⟩⟩
  omega

/-! ### Status codes -/

theorem Status.code_le_five (st : Status) : st.code ≤ 5 := by cases st <;> decide

/-- Settles O24: the codes by evaluation; 6 and 7 are above the largest. -/
theorem statusCodesAreAsNumbered : Obligations.StatusCodesAreAsNumbered := by
  refine ⟨rfl, rfl, rfl, rfl, rfl, rfl, fun st => ⟨fun h => ?_, fun h => ?_⟩⟩
  · exact absurd (h ▸ st.code_le_five) (by decide)
  · exact absurd (h ▸ st.code_le_five) (by decide)

end Sys2Proof.Machine
end

section
/-! PROOFS. Reading fields of the bit buffer: the integer laws (spec/42_bitfield_read.md R83), reading after a write
(spec/20_memory.md R22, R23), the byte view (spec/10_state.md R14), mixed widths (spec/20_memory.md R21). -/

namespace Sys2Proof.Machine

/-! ### MemRead -/

/-- A field read in two parts, the first part most significant (42_bitfield_read.md R83). -/
theorem read_add (m : Memory) (off a b : Nat) :
    m.read off (a + b) = m.read off a * 2 ^ b + m.read (off + a) b := by
  induction b with
  | zero => simp [Memory.read]
  | succ b ih =>
    rw [← Nat.add_assoc, Memory.read, ih, Memory.read, pow_succ, Nat.add_assoc off]
    ring

theorem read_eq_read_add_div (m : Memory) (off a b : Nat) : m.read off a = m.read off (a + b) / 2 ^ b := by
  rw [read_add, Nat.mul_comm, Nat.mul_add_div (Nat.two_pow_pos b), Nat.div_eq_of_lt (read_lt _ _ _), Nat.add_zero]

theorem read_eq_read_add_mod (m : Memory) (off a b : Nat) : m.read (off + a) b = m.read off (a + b) % 2 ^ b := by
  rw [read_add, Nat.mul_comm, Nat.mul_add_mod, Nat.mod_eq_of_lt (read_lt _ _ _)]

/-- A field whose cells are the bits of `v`, most significant first, has the value of `v`. -/
theorem read_eq_toNat {n : Nat} {m : Memory} {off : Nat} {v : BitVec n}
    (h : ∀ k, k < n → m.bitAt (off + k) = v.getLsbD (n - 1 - k)) : m.read off n = v.toNat := by
  refine Nat.eq_of_testBit_eq fun j => ?_
  rw [read_testBit, BitVec.testBit_toNat]
  by_cases hj : j < n
  · have hcell : n - 1 - (n - 1 - j) = j := by omega
    rw [h (n - 1 - j) (by omega), hcell, decide_eq_true hj, Bool.true_and]
  · rw [decide_eq_false hj, Bool.false_and, BitVec.getLsbD_of_ge v j (by omega)]

theorem read_write_same {n : Nat} (m : Memory) (off : Nat) (v : BitVec n) : (m.write off v).read off n = v.toNat := by
  refine read_eq_toNat fun k hk => ?_
  rw [bitAt_write, if_pos (by omega), Nat.add_sub_cancel_left]

theorem read_write_of_disjoint {n : Nat} (m : Memory) (off : Nat) (v : BitVec n) {off' n' : Nat}
    (h : off' + n' ≤ off ∨ off + n ≤ off') : (m.write off v).read off' n' = m.read off' n' := by
  refine read_congr _ _ _ _ fun k hk => ?_
  rw [bitAt_write, if_neg (by omega)]

/-- Settles O13: the two cases of a read after a write. -/
theorem memReadAfterMemWrite : Obligations.MemReadAfterMemWrite :=
  fun m off _ v => ⟨read_write_same m off v, fun _ _ => read_write_of_disjoint m off v⟩

/-! ### The data of a valid read -/

theorem exec_rdu_of_valid {s : State} {off : BitCount} {n : FieldWidth} (hpos : 1 ≤ n.toNat) (hn : n.toNat ≤ 32)
    (hfit : off.toNat + n.toNat ≤ s.len.toNat) : exec (.rdu off n) s =
      .next { s with responses := s.responses ++ [⟨.ok, unsignedData (s.buf.read off.toNat n.toNat)⟩] } := by
  rw [← readResponse_of_valid _ hpos hn hfit]
  exact execRdu_eq off n s

theorem exec_rds_of_valid {s : State} {off : BitCount} {n : FieldWidth} (hpos : 1 ≤ n.toNat) (hn : n.toNat ≤ 32)
    (hfit : off.toNat + n.toNat ≤ s.len.toNat) : exec (.rds off n) s =
      .next { s with responses := s.responses ++
        [⟨.ok, signedData (s.buf.bitAt off.toNat) (s.buf.read off.toNat n.toNat) n.toNat⟩] } := by
  rw [← readResponse_of_valid _ hpos hn hfit]
  exact execRds_eq off n s

theorem unsignedData_read_toNat (m : Memory) (off : Nat) {n : Nat} (hn : n ≤ 32) :
    (unsignedData (m.read off n)).toNat = m.read off n := unsignedData_toNat hn (read_lt m off n)

/-- As a number the sign extension adds ones above the field (42_bitfield_read.md R83). -/
theorem signedData_toNat (m : Memory) (off : Nat) {n : Nat} (hpos : 1 ≤ n) (hn : n ≤ 32) :
    (signedData (m.bitAt off) (m.read off n) n).toNat =
      if m.bitAt off then m.read off n + (2 ^ 32 - 2 ^ n) else m.read off n := by
  rw [signedData_eq_signExtend m off hpos, BitVec.toNat_signExtend, BitVec.toNat_setWidth_of_le hn, fieldBits_toNat,
    fieldBits, msb_read m off hpos]
  split <;> rfl

/-- Settles O11: the data of `RDU` is the field's value, that of `RDS` by `signedData_toNat`, the composition by
`read_add`. -/
theorem readLaws : Obligations.ReadLaws := by
  intro s off n hpos hn hfit
  have hu := unsignedData_read_toNat s.buf off.toNat hn
  refine ⟨_, _, exec_rdu_of_valid hpos hn hfit, exec_rds_of_valid hpos hn hfit, ?_, ?_, ?_⟩
  · rw [hu]
    exact read_lt _ _ _
  · rw [hu]
    exact signedData_toNat s.buf off.toNat hpos hn
  · intro a b off' ha hb hab hoff'
    refine ⟨_, _, exec_rdu_of_valid ha (by omega) (by omega), exec_rdu_of_valid hb (by omega) (by omega), ?_⟩
    rw [hu, unsignedData_read_toNat _ _ (by omega), unsignedData_read_toNat _ _ (by omega), hoff', ← read_add, hab]

/-! ### The byte view -/

theorem bitAt_of_byte (m : Memory) (j : Nat) {k : Nat} (hk : k < 8) :
    m.bitAt (8 * j + k) = (m.byteAt j).getLsbD (7 - k) := by
  have hbyte : (8 * j + k) / 8 = j := by omega
  have hbit : (8 * j + k) % 8 = k := by omega
  rw [Memory.bitAt, hbyte, hbit]

/-- The eight cells of a byte read as the byte (10_state.md R14). -/
theorem read_byte (m : Memory) (j : Nat) : m.read (8 * j) 8 = (m.byteAt j).toNat :=
  read_eq_toNat fun _ hk => bitAt_of_byte m j hk

/-- Settles O14: the cells by the byte view, the data by `read_byte`. -/
theorem rduOfAByteReturnsTheByteView : Obligations.RduOfAByteReturnsTheByteView := by
  intro s j off hoff hfit
  refine ⟨fun k => bitAt_of_byte s.buf j, ?_⟩
  have h := exec_rdu_of_valid (s := s) (off := off) (n := 8) (by decide) (by decide) (hoff ▸ hfit)
  rwa [hoff, show (8 : FieldWidth).toNat = 8 from rfl, read_byte] at h

/-! ### Two characters in a row -/

/-- The state after a `PUSH` answered `OK` (41_armor_append.md R70). -/
def pushOk (ch : Byte) (s : State) : State := respond .ok ((armor ch).setWidth 32) (appendSextet (armor ch) s)

section pushOk
variable (ch : Byte) (s : State)
@[simp] theorem pushOk_cfg : (pushOk ch s).cfg = s.cfg := rfl
@[simp] theorem pushOk_buf : (pushOk ch s).buf = s.buf.write s.len.toNat (armor ch) := rfl
end pushOk

theorem pushOk_len_toNat (ch : Byte) {s : State} (hl : s.len.toNat + 6 ≤ s.cfg.capBits) :
    (pushOk ch s).len.toNat = s.len.toNat + 6 := appendSextet_len_toNat (armor ch) s hl

theorem pushOk_responses {ch : Byte} {s : State} (hc : inAlphabet ch = true) :
    (pushOk ch s).responses = s.responses ++ [⟨.ok, BitVec.ofNat 32 (armorNumber ch)⟩] := by
  rw [← armor_setWidth hc]
  rfl

theorem exec_push_of_fits {s : State} {ch : Byte} (ha : s.abort = false) (hc : inAlphabet ch = true)
    (hl : s.len.toNat + 6 ≤ s.cfg.capBits) : exec (.push ch) s = .next (pushOk ch s) := execPush_of_fits ha hc hl

/-- The twelve cells of two writes are one number (20_memory.md R21). -/
theorem read_two_writes (m : Memory) (off : Nat) (v1 v2 : Sextet) :
    ((m.write off v1).write (off + 6) v2).read off 12 = v1.toNat * 64 + v2.toNat := by
  rw [read_add _ off 6 6, read_write_of_disjoint _ _ _ (.inl (Nat.le_refl _)), read_write_same, read_write_same]
  rfl

/-- Six cells that straddle two writes: the low bits of the first value, then the high bits of the second. -/
theorem read_across_two_writes (m : Memory) (off : Nat) (v1 v2 : Sextet) :
    ((m.write off v1).write (off + 6) v2).read (off + 3) 6 = v1.toNat % 8 * 8 + v2.toNat / 8 := by
  have hlast9 := read_eq_read_add_mod ((m.write off v1).write (off + 6) v2) off 3 9
  rw [read_eq_read_add_div _ (off + 3) 6 3, hlast9, read_two_writes]
  have := v2.isLt
  omega

/-- Settles O15: the second `PUSH` stores right after the first, so the cells are those of two writes in a row. -/
theorem mixedWidthsSeeOneBitSequence : Obligations.MixedWidthsSeeOneBitSequence := by
  intro s c1 c2 off3 ha h1 h2 hfit hoff3
  have hlen1 := pushOk_len_toNat c1 (s := s) (by omega)
  have hfit2 : (pushOk c1 s).len.toNat + 6 ≤ s.cfg.capBits := by omega
  have hlen2 : (pushOk c2 (pushOk c1 s)).len.toNat = s.len.toNat + 12 := by rw [pushOk_len_toNat c2 hfit2, hlen1]
  refine ⟨pushOk c2 (pushOk c1 s), ?_, ?_, ?_⟩
  · have hpush2 : exec (.push c2) (pushOk c1 s) = .next _ := exec_push_of_fits ha h2 hfit2
    rw [runCommands_cons _ (exec_push_of_fits ha h1 (by omega)), runCommands_cons _ hpush2]
    rfl
  · have h12 : (12 : FieldWidth).toNat = 12 := rfl
    rw [exec_rdu_of_valid (by decide) (by decide) (by omega), pushOk_buf, pushOk_buf, hlen1, h12, read_two_writes,
      armor_toNat h1, armor_toNat h2, unsignedData]
  · have h6 : (6 : FieldWidth).toNat = 6 := rfl
    rw [exec_rdu_of_valid (by decide) (by decide) (by omega), pushOk_buf, pushOk_buf, hlen1, hoff3, h6,
      read_across_two_writes, armor_toNat h1, armor_toNat h2, unsignedData]

end Sys2Proof.Machine
end

section
/-! PROOFS. The step and the clock edge: what they run (spec/30_encoding.md R40, spec/70_reset_and_hazards.md R120),
what they never write, and the invariant (spec/10_state.md R10, R11). -/

namespace Sys2Proof.Machine

/-! ### What a step runs -/

theorem step_of_inFlight {s : State} {w : Word} (h : s.port = .busy w ∨ s.port = .responding w) :
    step s = runWord w { s with port := .idle } := by
  rcases h with h | h <;> simp only [step, transaction, h]

theorem step_of_event {s : State} {e : Event} {rest : List Event} (hp : s.port = .idle) (he : s.events = e :: rest) :
    step s = takeEvent e { s with events := rest } := by
  simp only [step, transaction, hp, he]

theorem step_of_quiescent {s : State} (hp : s.port = .idle) (he : s.events = []) : step s = .next s := by
  simp only [step, transaction, hp, he]

/-- A word of 32 bits is the word of the table's row itself. -/
theorem tableWord_32 (w : Nat) : tableWord 32 w = BitVec.ofNat 32 w :=
  BitVec.eq_of_toNat_eq (by simp [tableWord])

/-- Settles O33: the word next in the queue, the word in flight, and the word placed in front of the queue. -/
theorem stepRunsTheDecodedCommand : Obligations.StepRunsTheDecodedCommand := by
  refine ⟨fun s w rest i hp he hd => ?_, fun s w i hp hd => ?_, fun s w i hd => ?_⟩
  · exact (step_of_event hp he).trans (runWord_of_ok _ hd)
  · exact (step_of_inFlight hp).trans (runWord_of_ok _ hd)
  · rw [← tableWord_32] at hd
    exact (step_of_event (s := s.withFetchWord 32 w) rfl rfl).trans (runWord_of_ok _ hd)

/-- Settles O34: no event, a reset, and an illegal word, which keeps the latch. -/
theorem stepOfOtherEvents : Obligations.StepOfOtherEvents := by
  refine ⟨fun s => step_of_quiescent, fun s rest hp he => ?_, fun s w why rest hp he hd => ?_⟩
  · rw [step_of_event hp he]
    simp [takeEvent, resetBlock, clearAccumulator, hp]
  · exact (step_of_event hp he).trans (runWord_of_error _ hd)

/-- Settles O35: a word in flight and an event both complete, and with neither the state stays. -/
theorem theBlockNeverHalts : Obligations.TheBlockNeverHalts := by
  intro s
  cases hp : s.port with
  | busy w => exact step_of_inFlight (.inl hp) ▸ runWord_completes w _
  | responding w => exact step_of_inFlight (.inr hp) ▸ runWord_completes w _
  | idle =>
    cases he : s.events with
    | nil => exact ⟨s, step_of_quiescent hp he⟩
    | cons e rest => exact step_of_event hp he ▸ takeEvent_completes e _

/-! ### What an event writes -/

/-- Every event is a reset, an illegal word, or a command. -/
theorem takeEvent_cases {e : Event} {s t : State} (h : takeEvent e s = .next t) :
    (e = .reset ∧ t = resetBlock s) ∨ (∃ w why, e = .command w ∧ decode w = .error why ∧ t = raiseFault .ill s) ∨
    ∃ w i, e = .command w ∧ decode w = .ok i ∧ exec i s = .next t := by
  cases e with
  | reset => cases h; exact .inl ⟨rfl, rfl⟩
  | command w =>
    rcases runWord_cases h with ⟨i, hd, hi⟩ | ⟨why, hd, ht⟩
    · exact .inr (.inr ⟨w, i, rfl, hd, hi⟩)
    · exact .inr (.inl ⟨w, why, rfl, hd, ht⟩)

/-- Settles O16: of the writes a command can end in, `CLR` and the append touch cells, and the append only the six from
`len` on. -/
theorem onlyPushClrAndResetWriteCells : Obligations.OnlyPushClrAndResetWriteCells := by
  intro e s t k h hk
  rcases takeEvent_cases h with ⟨rfl, -⟩ | ⟨w, why, rfl, -, rfl⟩ | ⟨w, i, rfl, hd, hi⟩
  · exact .inl rfl
  · exact absurd rfl hk
  · refine .inr ⟨w, rfl, ?_⟩
    rcases exec_cases hi with ⟨_, rfl⟩ | ⟨_, rfl⟩ | ⟨rfl, -⟩ | ⟨ch, rfl, -, -, hl, rfl⟩ | ⟨_, _, -, -, -, -, rfl⟩
    · exact absurd rfl hk
    · exact absurd rfl hk
    · exact .inl hd
    · have hin : ¬ (k < s.len.toNat ∨ s.len.toNat + 6 ≤ k) := fun hout =>
        hk (bitAt_appendSextet_of_outside (armor ch) s hout)
      exact .inr ⟨ch, hd, by omega, by omega, appendSextet_len_toNat (armor ch) s hl⟩
    · exact absurd rfl hk

/-- Settles O17: the writes a command can end in, each with its `len`. -/
theorem onlyPushPadClrAndResetWriteLen : Obligations.OnlyPushPadClrAndResetWriteLen := by
  intro e s t h
  rcases takeEvent_cases h with ⟨rfl, rfl⟩ | ⟨w, why, rfl, -, rfl⟩ | ⟨w, i, rfl, hd, hi⟩
  · exact .inr (.inl ⟨.inl rfl, rfl⟩)
  · exact .inl rfl
  · rcases exec_cases hi with ⟨_, rfl⟩ | ⟨_, rfl⟩ | ⟨rfl, rfl⟩ | ⟨ch, rfl, -, -, hl, rfl⟩ |
      ⟨ch, p, rfl, -, hp, hle, rfl⟩
    · exact .inl rfl
    · exact .inl rfl
    · exact .inr (.inl ⟨.inr ⟨w, rfl, hd⟩, rfl⟩)
    · have hlen := appendSextet_len_toNat (armor ch) s hl
      exact .inr (.inr (.inl ⟨w, ch, rfl, hd, hlen, hlen.trans_le hl⟩))
    · exact .inr (.inr (.inr ⟨w, ch, p, rfl, hd, hp, hle, cutBits_len_toNat p s⟩))

/-- Settles O40: both empty the accumulator. -/
theorem resetAndClrAgree : Obligations.ResetAndClrAgree := by
  intro s t u ht hu
  cases ht
  cases hu
  exact ⟨rfl, rfl, rfl⟩

/-! ### What an event leaves unchanged -/

/-- An event writes neither the build nor the events to come, and leaves an idle port idle. -/
theorem takeEvent_frame {e : Event} {s t : State} (h : takeEvent e s = .next t) :
    t.cfg = s.cfg ∧ t.events = s.events ∧ (s.port = .idle → t.port = .idle) := by
  rcases takeEvent_cases h with ⟨-, rfl⟩ | ⟨_, _, -, -, rfl⟩ | ⟨_, i, -, -, hi⟩
  · exact ⟨rfl, rfl, fun _ => rfl⟩
  · exact ⟨rfl, rfl, id⟩
  · obtain ⟨hcfg, hport, hevents⟩ := exec_frame hi
    exact ⟨hcfg, hevents, hport.trans⟩

/-- An edge completes no event and moves only the port, or completes one from the idle port. -/
theorem clockEdge_cases {e : Edge} {s t : State} (h : clockEdge e s = .next t) :
    t = { s with port := nextPort e s.port } ∨
    ∃ ev, takeEvent ev { s with port := nextPort e s.port } = .next t := by
  unfold clockEdge at h
  split at h
  · exact .inr ⟨_, h⟩
  · cases h; exact .inl rfl

/-- What every event keeps, and what the port and the events to come do not enter into, every step and every clock edge
keep. -/
theorem step_and_clockEdge_keep (P : State → Prop)
    (hport : ∀ (s : State) (p : Port), P s → P { s with port := p })
    (hevents : ∀ (s : State) (es : List Event), P s → P { s with events := es })
    (htake : ∀ (e : Event) (s t : State), P s → takeEvent e s = .next t → P t) :
    (∀ s t : State, P s → step s = .next t → P t) ∧
    ∀ (e : Edge) (s t : State), P s → clockEdge e s = .next t → P t := by
  refine ⟨fun s t hs h => ?_, fun e s t hs h => ?_⟩
  · rcases step_cases h with ⟨-, -, rfl⟩ | ⟨w, -, hw⟩ | ⟨e, rest, -, -, he⟩
    · exact hs
    · exact htake (.command w) _ t (hport s .idle hs) hw
    · exact htake e _ t (hevents s rest hs) he
  · rcases clockEdge_cases h with rfl | ⟨ev, hev⟩
    · exact hport s _ hs
    · exact htake ev _ t (hport s _ hs) hev

/-- Settles O39: the capacity of `s` is a property that `takeEvent_frame` keeps. -/
theorem nothingWritesTheCapacity : Obligations.NothingWritesTheCapacity := by
  have keep (c : Config) := step_and_clockEdge_keep (fun s => s.cfg = c) (fun _ _ => id) (fun _ _ => id)
    fun _ _ _ hs h => (takeEvent_frame h).1.trans hs
  exact ⟨fun s t => (keep s.cfg).1 s t rfl, fun e s t => (keep s.cfg).2 e s t rfl⟩

/-! ### The invariant -/

/-- An accumulator that was cleared has the invariant, whatever stood before. -/
theorem inv_of_empty {s : State} (hbuf : s.buf = []) (hlen : s.len = 0) : s.inv :=
  ⟨hbuf ▸ empty_wf, by simp [hbuf], by simp [hlen]⟩

/-- A `PUSH` that fits writes cells that exist (20_memory.md R31). -/
theorem appendSextet_inv (v : Sextet) {s : State} (hs : s.inv) (hl : s.len.toNat + 6 ≤ s.cfg.capBits) :
    (appendSextet v s).inv := by
  obtain ⟨hwf, hbytes, -⟩ := hs
  exact ⟨appendSextet_wf v s hwf, write_bound _ _ _ _ hbytes hl, (appendSextet_len_toNat v s hl).trans_le hl⟩

theorem cutBits_inv (p : Nat) {s : State} (hs : s.inv) : (cutBits p s).inv := by
  obtain ⟨hwf, hbytes, hlen⟩ := hs
  exact ⟨hwf, hbytes, (cutBits_len_toNat p s).trans_le ((Nat.sub_le _ _).trans hlen)⟩

theorem exec_inv {i : Instr} {s t : State} (hs : s.inv) (h : exec i s = .next t) : t.inv := by
  rcases exec_cases h with ⟨_, rfl⟩ | ⟨_, rfl⟩ | ⟨-, rfl⟩ | ⟨ch, -, -, -, hl, rfl⟩ | ⟨_, p, -, -, -, -, rfl⟩
  · exact hs
  · exact hs
  · exact inv_of_empty rfl rfl
  · exact appendSextet_inv (armor ch) hs hl
  · exact cutBits_inv p hs

theorem takeEvent_inv {e : Event} {s t : State} (hs : s.inv) (h : takeEvent e s = .next t) : t.inv := by
  rcases takeEvent_cases h with ⟨-, rfl⟩ | ⟨_, _, -, -, rfl⟩ | ⟨_, i, -, -, hi⟩
  · exact inv_of_empty rfl rfl
  · exact hs
  · exact exec_inv hs hi

/-- Settles O36: the invariant speaks neither of the port nor of the events to come, and every event keeps it. -/
theorem everyStepKeepsTheInvariant : Obligations.EveryStepKeepsTheInvariant :=
  step_and_clockEdge_keep State.inv (fun _ _ => id) (fun _ _ => id) fun _ _ _ => takeEvent_inv

/-- Settles O37: the reset state holds nothing. -/
theorem resetHasTheInvariant : Obligations.ResetHasTheInvariant := inv_of_empty rfl rfl

/-! ### The queue -/

theorem runWord_port {w : Word} {s t : State} (h : runWord w s = .next t) : t.port = s.port := by
  rcases runWord_cases h with ⟨i, -, hi⟩ | ⟨_, -, rfl⟩
  · obtain ⟨-, hport, -⟩ := exec_frame hi
    exact hport
  · rfl

/-- An event does the same whatever events come after it. -/
theorem takeEvent_with_events {e : Event} {s t : State} (es : List Event) (h : takeEvent e s = .next t) :
    takeEvent e { s with events := es } = .next { t with events := es } := by
  cases e with
  | reset => cases h; rfl
  | command w =>
    have hport := runWord_port h
    exact (runWord_with s.port es h).trans (by rw [← hport])

theorem runEvents_cons {e : Event} {s t : State} (rest : List Event) (h : takeEvent e s = .next t) :
    runEvents (e :: rest) s = runEvents rest t := by
  simp only [runEvents, h]

theorem run_succ_of_step {M : Host.Core} {s t : M.State} (k : Nat) (h : M.step s = .next t) :
    M.run (k + 1) s = M.run k t := by
  rw [Host.Core.run, h]

/-- Settles O41: each step takes the first event of the queue, as the fold does. -/
theorem runningTheQueueIsTheFold : Obligations.RunningTheQueueIsTheFold := by
  intro es
  induction es with
  | nil =>
    intro s hp he
    cases s
    cases he
    rfl
  | cons e rest ih =>
    intro s hp he
    obtain ⟨t, ht⟩ := takeEvent_completes e { s with events := rest }
    obtain ⟨-, hevents, hport⟩ := takeEvent_frame ht
    have hstep : step s = .next t := (step_of_event hp he).trans ht
    have hfold := runEvents_cons rest (takeEvent_with_events [] ht)
    exact (run_succ_of_step (M := core) rest.length hstep).trans ((ih t (hport hp) hevents).trans hfold.symm)

end Sys2Proof.Machine
end

section
/-! PROOFS. The cells at or above `len` are never observed (spec/10_state.md R17): two runs from states that differ
there alone stay so related. -/

namespace Sys2Proof.Machine

/-! ### The writes keep two states alike -/

section
variable {s t : State} (h : SameContent s t)
include h

theorem SameContent.respond (st : Status) (d : Word) : SameContent (respond st d s) (respond st d t) :=
  { h with responses := by rw [respond_responses, respond_responses, h.responses] }

theorem SameContent.raiseFault (c : Cause) : SameContent (raiseFault c s) (raiseFault c t) :=
  { h with
    abort := congrArg c.abortAfter h.abort
    responses := by rw [raiseFault_responses, raiseFault_responses, h.responses] }

theorem SameContent.clearAccumulator : SameContent (clearAccumulator s) (clearAccumulator t) :=
  { h with len := rfl, abort := rfl, content := fun _ _ => rfl }

theorem SameContent.resetBlock : SameContent (resetBlock s) (resetBlock t) :=
  { h.clearAccumulator with port := rfl }

/-- The content grows by the six cells written, which are the same in both. -/
theorem SameContent.appendSextet (v : Sextet) (hl : s.len.toNat + 6 ≤ s.cfg.capBits) :
    SameContent (appendSextet v s) (appendSextet v t) where
  cfg := h.cfg
  len := by rw [appendSextet_len, appendSextet_len, h.len]
  abort := h.abort
  port := h.port
  events := h.events
  responses := h.responses
  content i hi := by
    rw [appendSextet_len_toNat v s hl] at hi
    rw [appendSextet_buf, appendSextet_buf, bitAt_write, bitAt_write, ← h.len]
    split
    · rfl
    · exact h.content i (by omega)

theorem SameContent.cutBits (p : Nat) : SameContent (cutBits p s) (cutBits p t) :=
  { h with
    len := by rw [cutBits_len, cutBits_len, h.len]
    content := fun i hi => h.content i (by rw [cutBits_len_toNat] at hi; omega) }

theorem SameContent.content_eq : s.content = t.content := by
  rw [State.content, State.content, ← h.len]
  exact List.map_congr_left fun i hi => h.content i (List.mem_range.mp hi)

theorem SameContent.observe_eq : s.observe = t.observe := by
  rw [State.observe, State.observe, h.responses, h.len, h.abort, h.content_eq]

end

/-! ### The commands keep two states alike -/

/-- Both outcomes are next states, which differ at most in the cells at or above `len`. -/
def SameOutcome (o o' : Host.Outcome State Fault Refusal) : Prop :=
  ∃ s' t' : State, o = .next s' ∧ o' = .next t' ∧ SameContent s' t'

section
variable {s t : State} (h : SameContent s t)
include h

/-- The latch, the alphabet and the capacity decide the same in both. -/
theorem SameContent.execPush (ch : Byte) : SameOutcome (execPush ch s) (execPush ch t) := by
  obtain ⟨s', hs⟩ := exec_completes (.push ch) s
  rcases execPush_cases hs with ⟨ha, rfl⟩ | ⟨ha, hc, rfl⟩ | ⟨ha, hc, hl, rfl⟩ | ⟨ha, hc, hl, rfl⟩
  · exact ⟨_, _, hs, execPush_of_abort ch (h.abort ▸ ha), h.raiseFault .abortedPush⟩
  · exact ⟨_, _, hs, execPush_of_not_inAlphabet (h.abort ▸ ha) hc, h.raiseFault .badChar⟩
  · exact ⟨_, _, hs, execPush_of_overflows (h.abort ▸ ha) hc (h.cfg ▸ h.len ▸ hl), h.raiseFault .ovf⟩
  · exact ⟨_, _, hs, execPush_of_fits (h.abort ▸ ha) hc (h.cfg ▸ h.len ▸ hl),
      (h.appendSextet (armor ch) hl).respond .ok _⟩

/-- The latch and `len` decide the same in both. -/
theorem SameContent.execPad (ch : Byte) : SameOutcome (execPad ch s) (execPad ch t) := by
  cases ha : s.abort with
  | true =>
    exact ⟨_, _, execPad_of_abort ch ha, execPad_of_abort ch (h.abort ▸ ha), h.raiseFault .abortedPad⟩
  | false =>
    have hat : t.abort = false := h.abort ▸ ha
    have hcut := h.cutBits (padCount ch)
    rcases Nat.lt_or_ge s.len.toNat (padCount ch) with hp | hp
    · exact ⟨_, _, execPad_of_gt ha hp, execPad_of_gt hat (h.len ▸ hp), h.raiseFault .rng⟩
    · exact ⟨_, _, execPad_of_le ha hp, execPad_of_le hat (h.len ▸ hp), hcut.len ▸ hcut.respond .ok _⟩

/-- A valid read sees only cells below `len`; another sees none. -/
theorem SameContent.readResponse_eq (off : BitCount) (n : FieldWidth) {d d' : Word}
    (hd : 1 ≤ n.toNat → off.toNat + n.toNat ≤ s.len.toNat → d = d') :
    readResponse s off n d = readResponse t off n d' := by
  rw [← readResponse_congr h.len]
  cases hv : readValid s off n with
  | true =>
    obtain ⟨hpos, -, hfit⟩ := (readValid_iff s off n).mp hv
    rw [hd hpos hfit]
  | false => simp only [readResponse, hv, Bool.false_eq_true, if_false]

theorem SameContent.read_eq {off n : Nat} (hfit : off + n ≤ s.len.toNat) : s.buf.read off n = t.buf.read off n :=
  read_congr _ _ _ _ fun k hk => h.content (off + k) (by omega)

theorem SameContent.execRdu (off : BitCount) (n : FieldWidth) : SameOutcome (execRdu off n s) (execRdu off n t) := by
  refine ⟨_, _, execRdu_eq off n s, execRdu_eq off n t, ?_⟩
  rw [h.readResponse_eq off n fun _ hfit => congrArg unsignedData (h.read_eq hfit)]
  exact h.respond _ _

theorem SameContent.execRds (off : BitCount) (n : FieldWidth) : SameOutcome (execRds off n s) (execRds off n t) := by
  refine ⟨_, _, execRds_eq off n s, execRds_eq off n t, ?_⟩
  rw [h.readResponse_eq off n fun hpos hfit => by rw [h.read_eq hfit, h.content off.toNat (by omega)]]
  exact h.respond _ _

theorem SameContent.execStat : SameOutcome (execStat s) (execStat t) := by
  refine ⟨_, _, rfl, rfl, ?_⟩
  rw [statusView_congr h.len h.abort]
  exact h.respond _ _

theorem SameContent.exec (i : Instr) : SameOutcome (exec i s) (exec i t) := by
  cases i with
  | nop => exact ⟨_, _, rfl, rfl, h.respond .ok 0⟩
  | clr => exact ⟨_, _, rfl, rfl, h.clearAccumulator.respond .ok 0⟩
  | stat => exact h.execStat
  | push ch => exact h.execPush ch
  | pad ch => exact h.execPad ch
  | rdu off n => exact h.execRdu off n
  | rds off n => exact h.execRds off n

theorem SameContent.runWord (w : Word) : SameOutcome (runWord w s) (runWord w t) := by
  cases hd : decode w with
  | ok i =>
    rw [runWord_of_ok s hd, runWord_of_ok t hd]
    exact h.exec i
  | error why => exact ⟨_, _, runWord_of_error s hd, runWord_of_error t hd, h.raiseFault .ill⟩

theorem SameContent.takeEvent (e : Event) : SameOutcome (takeEvent e s) (takeEvent e t) := by
  cases e with
  | reset => exact ⟨_, _, rfl, rfl, h.resetBlock⟩
  | command w => exact h.runWord w

end

theorem SameContent.runEvents {s t : State} (h : SameContent s t) (es : List Event) :
    SameOutcome (runEvents es s) (runEvents es t) := by
  induction es generalizing s t with
  | nil => exact ⟨s, t, rfl, rfl, h⟩
  | cons e rest ih =>
    obtain ⟨s', t', hs, ht, h'⟩ := h.takeEvent e
    rw [runEvents_cons rest hs, runEvents_cons rest ht]
    exact ih h'

/-- Settles O42: every event keeps two such states alike, and alike they show the same. -/
theorem cellsAboveLenAreNeverObserved : Obligations.CellsAboveLenAreNeverObserved := by
  intro es s t h
  obtain ⟨s', t', hs, ht, h'⟩ := h.runEvents es
  exact ⟨s', t', hs, ht, h', h'.observe_eq⟩

end Sys2Proof.Machine
end

section
/-! PROOFS. Whole payload fields, sequences of fragments, and filling the buffer (spec/41_armor_append.md R70, R77,
R78). -/

namespace Sys2Proof.Machine

/-! ### The content -/

@[simp] theorem content_length (s : State) : s.content.length = s.len.toNat := by
  rw [State.content, List.length_map, List.length_range]

theorem content_getElem? (s : State) {i : Nat} (hi : i < s.len.toNat) : s.content[i]? = some (s.buf.bitAt i) := by
  rw [State.content, List.getElem?_map, List.getElem?_range hi, Option.map_some]

/-- An append adds its six bits to the content (20_memory.md R21). -/
theorem content_pushOk (ch : Byte) {s : State} (hl : s.len.toNat + 6 ≤ s.cfg.capBits) :
    (pushOk ch s).content = s.content ++ sextetBits (armor ch) := by
  rw [State.content, pushOk_len_toNat ch hl, List.range_add, List.map_append, List.map_map]
  congr 1
  · exact List.map_congr_left fun i hi => bitAt_appendSextet_of_outside _ s (.inl (List.mem_range.mp hi))
  · exact List.map_congr_left fun k hk => bitAt_appendSextet _ s (List.mem_range.mp hk)

/-- A cut leaves the front of the content (41_armor_append.md R73). -/
theorem content_cutBits (p : Nat) (s : State) : (cutBits p s).content = s.content.take (s.len.toNat - p) := by
  rw [State.content, cutBits_len_toNat, State.content, ← List.map_take, List.take_range,
    Nat.min_eq_left (Nat.sub_le _ _), cutBits_buf]

theorem payloadBits_cons (c : Byte) (cs : List Byte) :
    payloadBits (c :: cs) = sextetBits (armor c) ++ payloadBits cs := List.flatMap_cons

theorem sextetBits_getElem? (c : Byte) {k : Nat} (hk : k < 6) :
    (sextetBits (armor c))[k]? = some ((armorNumber c).testBit (5 - k)) := by
  rw [sextetBits, List.getElem?_map, List.getElem?_range hk, Option.map_some, armor_getLsbD c (by omega)]

/-- Bit `k` of the `j`-th character stands at place `6 j + k`. -/
theorem payloadBits_getElem? {cs : List Byte} {j k : Nat} {c : Byte} (hj : cs[j]? = some c) (hk : k < 6) :
    (payloadBits cs)[6 * j + k]? = some ((armorNumber c).testBit (5 - k)) := by
  induction cs generalizing j with
  | nil => simp at hj
  | cons a cs ih =>
    have hlen : (sextetBits (armor a)).length = 6 := rfl
    rw [payloadBits_cons]
    cases j with
    | zero =>
      obtain rfl : a = c := by simpa using hj
      rw [Nat.mul_zero, Nat.zero_add, List.getElem?_append_left (hlen ▸ hk), sextetBits_getElem? a hk]
    | succ j =>
      have hplace : 6 * (j + 1) + k - 6 = 6 * j + k := by omega
      rw [List.getElem?_append_right (by omega), hlen, hplace]
      exact ih (by simpa using hj)

/-! ### Lists of commands -/

theorem runCommands_append {is : List Instr} {s t : State} (js : List Instr) (h : runCommands is s = .next t) :
    runCommands (is ++ js) s = runCommands js t := by
  induction is generalizing s with
  | nil => cases h; rfl
  | cons i is ih =>
    obtain ⟨u, hu⟩ := exec_completes i s
    rw [runCommands_cons is hu] at h
    rw [List.cons_append, runCommands_cons _ hu, ih h]

/-! ### A payload field -/

/-- From `s` to `t` the characters `cs` were appended, each answered `OK`. -/
structure PushedAll (s : State) (cs : List Byte) (t : State) : Prop where
  cfg : t.cfg = s.cfg
  abort : t.abort = false
  len : t.len.toNat = s.len.toNat + 6 * cs.length
  content : t.content = s.content ++ payloadBits cs
  responses : t.responses = s.responses ++ cs.map fun c => ⟨.ok, BitVec.ofNat 32 (armorNumber c)⟩

/-- Characters of the alphabet that fit are all appended (41_armor_append.md R77). -/
theorem runCommands_push_of_fits {cs : List Byte} {s : State} (ha : s.abort = false)
    (hcs : ∀ c ∈ cs, inAlphabet c = true) (hl : s.len.toNat + 6 * cs.length ≤ s.cfg.capBits) :
    ∃ t, runCommands (cs.map Instr.push) s = .next t ∧ PushedAll s cs t := by
  induction cs generalizing s with
  | nil => exact ⟨s, rfl, rfl, ha, rfl, by simp [payloadBits], by simp⟩
  | cons c cs ih =>
    rw [List.length_cons] at hl
    obtain ⟨hc, hcs⟩ := List.forall_mem_cons.mp hcs
    have hfit : s.len.toNat + 6 ≤ s.cfg.capBits := by omega
    have hlen := pushOk_len_toNat c hfit
    obtain ⟨t, ht, hcfg, habort, hlent, hcontent, hresp⟩ := ih (s := pushOk c s) ha hcs (by rw [pushOk_cfg]; omega)
    refine ⟨t, (runCommands_cons _ (exec_push_of_fits ha hc hfit)).trans ht, hcfg, habort, ?_, ?_, ?_⟩
    · rw [hlent, hlen, List.length_cons]
      omega
    · rw [hcontent, content_pushOk c hfit, payloadBits_cons, List.append_assoc]
    · rw [hresp, pushOk_responses hc, List.append_assoc, List.map_cons, List.singleton_append]

/-! ### A field -/

/-- From `s` to `t` a whole payload field and its pad field were taken, every command answered `OK`. -/
structure FieldTaken (s : State) (cs : List Byte) (d : Byte) (t : State) : Prop where
  cfg : t.cfg = s.cfg
  abort : t.abort = false
  len : t.len.toNat = s.len.toNat + 6 * cs.length - padCount d
  content : t.content = appendFragment s.content (cs, d)
  cells : ∀ i b, (s.content ++ payloadBits cs)[i]? = some b → t.buf.bitAt i = b
  responses : t.responses = s.responses ++ cs.map (fun c => ⟨.ok, BitVec.ofNat 32 (armorNumber c)⟩) ++
    [⟨.ok, BitVec.ofNat 32 t.len.toNat⟩]

/-- The cells below `len` are the content. -/
theorem bitAt_of_content {s : State} {i : Nat} {b : Bool} (h : s.content[i]? = some b) : s.buf.bitAt i = b := by
  obtain ⟨hi, -⟩ := List.getElem?_eq_some_iff.mp h
  rw [content_length] at hi
  exact Option.some.inj ((content_getElem? s hi).symm.trans h)

/-- The premises of 41_armor_append.md R77 give its conclusions. -/
theorem runCommands_fieldCommands {s : State} {cs : List Byte} {d : Byte} (ha : s.abort = false)
    (hcs : ∀ c ∈ cs, inAlphabet c = true) (hl : s.len.toNat + 6 * cs.length ≤ s.cfg.capBits)
    (hp : padCount d ≤ s.len.toNat + 6 * cs.length) :
    ∃ t, runCommands (fieldCommands cs d) s = .next t ∧ FieldTaken s cs d t := by
  obtain ⟨u, hu, hcfg, habort, hlen, hcontent, hresp⟩ := runCommands_push_of_fits ha hcs hl
  have hpad : exec (.pad d) u = .next _ := execPad_of_le habort (by rw [hlen]; exact hp)
  refine ⟨_, (runCommands_append _ hu).trans (runCommands_cons [] hpad), hcfg, habort, ?_, ?_, fun i b hi => ?_, ?_⟩
  · rw [respond_len, cutBits_len_toNat, hlen]
  · rw [appendFragment, content_length, ← hlen, ← hcontent]
    exact content_cutBits (padCount d) u
  · exact bitAt_of_content (s := u) (hcontent ▸ hi)
  · rw [respond_responses, cutBits_responses, hresp, respond_len, BitVec.ofNat_toNat]

/-- Settles O43: the old cells and the new ones are those of the content before the cut. -/
theorem oneWholeField : Obligations.OneWholeField := by
  intro s cs d ha hcs hl hp
  obtain ⟨t, ht, hfield⟩ := runCommands_fieldCommands ha hcs hl hp
  refine ⟨t, ht, hfield.abort, hfield.len, fun i hi => hfield.cells i _ ?_, fun j c k hj hk => hfield.cells _ _ ?_,
    hfield.responses⟩
  · rw [List.getElem?_append_left (by rwa [content_length]), content_getElem? s hi]
  · rw [List.getElem?_append_right (by rw [content_length]; omega), content_length, Nat.add_assoc,
      Nat.add_sub_cancel_left, payloadBits_getElem? hj hk]

/-! ### A sequence -/

/-- From `s` to `t` every response was `OK`. -/
def AnsweredOk (s t : State) : Prop := ∃ rs, t.responses = s.responses ++ rs ∧ ∀ r ∈ rs, r.status = .ok

theorem AnsweredOk.trans {s t u : State} (hst : AnsweredOk s t) (htu : AnsweredOk t u) : AnsweredOk s u := by
  obtain ⟨rs, hrs, hok⟩ := hst
  obtain ⟨rs', hrs', hok'⟩ := htu
  exact ⟨rs ++ rs', by rw [hrs', hrs, List.append_assoc], List.forall_mem_append.mpr ⟨hok, hok'⟩⟩

theorem AnsweredOk.drop {s t : State} (h : AnsweredOk s t) :
    ∀ r ∈ t.responses.drop s.responses.length, r.status = .ok := by
  obtain ⟨rs, hrs, hok⟩ := h
  rwa [hrs, List.drop_left]

theorem FieldTaken.answeredOk {s t : State} {cs : List Byte} {d : Byte} (h : FieldTaken s cs d t) :
    AnsweredOk s t := by
  refine ⟨_, h.responses.trans (List.append_assoc _ _ _), fun r hr => ?_⟩
  rcases List.mem_append.mp hr with hr | hr
  · obtain ⟨c, -, rfl⟩ := List.mem_map.mp hr
    rfl
  · rw [List.mem_singleton.mp hr]

/-- The fragments of a sequence, from any content on (41_armor_append.md R78). -/
theorem runCommands_fragments {fs : List Fragment} {s : State} (ha : s.abort = false)
    (hfit : fragmentsFit s.cfg.capBits s.len.toNat fs = true) :
    ∃ t, runCommands (fs.flatMap fun f => fieldCommands f.1 f.2) s = .next t ∧
      t.content = fs.foldl appendFragment s.content ∧ t.abort = false ∧ AnsweredOk s t := by
  induction fs generalizing s with
  | nil => exact ⟨s, rfl, rfl, ha, [], by simp⟩
  | cons f fs ih =>
    simp only [fragmentsFit, Bool.and_eq_true, decide_eq_true_eq, List.all_eq_true] at hfit
    obtain ⟨⟨⟨hcs, hl⟩, hp⟩, hrest⟩ := hfit
    obtain ⟨u, hu, hfield⟩ := runCommands_fieldCommands ha hcs hl hp
    rw [← hfield.len, ← hfield.cfg] at hrest
    obtain ⟨t, ht, hcontent, habort, hok⟩ := ih hfield.abort hrest
    refine ⟨t, ?_, ?_, habort, hfield.answeredOk.trans hok⟩
    · rw [List.flatMap_cons, runCommands_append _ hu, ht]
    · rw [hcontent, hfield.content, List.foldl_cons]

/-- Settles O44: `CLR` leaves an empty content, from which the fragments follow. -/
theorem sequenceYieldsTheFragmentsBits : Obligations.SequenceYieldsTheFragmentsBits := by
  intro s fs hfit
  obtain ⟨t, ht, hcontent, habort, hok⟩ := runCommands_fragments (s := respond .ok 0 (clearAccumulator s)) rfl hfit
  have hclr : AnsweredOk s (respond .ok 0 (clearAccumulator s)) := ⟨[⟨.ok, 0⟩], rfl, by simp⟩
  exact ⟨t, (runCommands_cons _ rfl).trans ht, hcontent, habort, (hclr.trans hok).drop⟩

/-! ### Filling the buffer -/

/-- Where the buffer has no room for a character, any further characters keep what is held and set the latch. -/
theorem runCommands_push_of_full {cs : List Byte} {s : State} (ha : s.abort = false)
    (hl : s.cfg.capBits < s.len.toNat + 6) (hcs : ∀ c ∈ cs, inAlphabet c = true) :
    ∃ t, runCommands (cs.map Instr.push) s = .next t ∧ t.len = s.len ∧ (t.abort = true ↔ 0 < cs.length) := by
  cases cs with
  | nil => exact ⟨s, rfl, rfl, by simp [ha]⟩
  | cons c cs =>
    have hpush : exec (.push c) s = .next (raiseFault .ovf s) := execPush_of_overflows ha (hcs c (by simp)) hl
    exact ⟨_, (runCommands_cons _ hpush).trans (runCommands_push_of_abort cs rfl), rfl, by simp [Cause.abortAfter]⟩

/-- Settles O45: as many characters as fit are appended, and the rest finds the buffer full. -/
theorem charactersUpToTheCapacityFit : Obligations.CharactersUpToTheCapacityFit := by
  intro s cs ha hlen hcs
  have hlen : s.len.toNat = 0 := congrArg BitVec.toNat hlen
  rcases Nat.lt_or_ge (s.cfg.capBits / 6) cs.length with hover | hfit
  · have htake : (cs.take (s.cfg.capBits / 6)).length = s.cfg.capBits / 6 := List.length_take_of_le hover.le
    obtain ⟨u, hu, hcfg, habort, hlenu, -, -⟩ := runCommands_push_of_fits (cs := cs.take (s.cfg.capBits / 6)) ha
      (fun c hc => hcs c (List.mem_of_mem_take hc)) (by omega)
    obtain ⟨t, ht, hlent, habortt⟩ := runCommands_push_of_full (cs := cs.drop (s.cfg.capBits / 6)) habort
      (by rw [hcfg]; omega) fun c hc => hcs c (List.mem_of_mem_drop hc)
    refine ⟨t, ?_, ?_, ?_⟩
    · rw [← List.take_append_drop (s.cfg.capBits / 6) cs, List.map_append, runCommands_append _ hu, ht]
    · rw [hlent, hlenu, htake]
      omega
    · rw [habortt, List.length_drop]
      omega
  · obtain ⟨t, ht, -, habort, hlent, -, -⟩ := runCommands_push_of_fits ha hcs (by omega)
    refine ⟨t, ht, by omega, ?_⟩
    rw [habort]
    exact iff_of_false Bool.false_ne_true (by omega)

end Sys2Proof.Machine
end

section
/-! PROOFS. The command port, one clock edge at a time (spec/30_encoding.md R40, spec/70_reset_and_hazards.md R110,
R111). -/

namespace Sys2Proof.Machine

/-! ### One edge -/

theorem nextPort_of_rst {e : Edge} (h : e.rst = true) (p : Port) : nextPort e p = .idle := if_pos h

theorem completedEvent_of_rst {e : Edge} (h : e.rst = true) (p : Port) : completedEvent e p = some .reset := if_pos h

section
variable {e : Edge} (h : e.rst = false)
include h

theorem completedEvent_idle : completedEvent e .idle = none := by simp [completedEvent, h]

theorem completedEvent_busy (w : Word) : completedEvent e (.busy w) = none := by simp [completedEvent, h]

theorem completedEvent_responding (w : Word) : completedEvent e (.responding w) = some (.command w) := by
  simp [completedEvent, h]

theorem nextPort_idle_of_not_valid (hv : e.cmdValid = false) : nextPort e .idle = .idle := by simp [nextPort, h, hv]

theorem nextPort_idle_of_valid (hv : e.cmdValid = true) :
    nextPort e .idle = if e.finish then .responding e.cmd else .busy e.cmd := by simp [nextPort, h, hv]

theorem nextPort_busy (w : Word) :
    nextPort e (.busy w) = if e.finish then .responding w else .busy w := by simp [nextPort, h]

theorem nextPort_responding (w : Word) : nextPort e (.responding w) = .idle := by simp [nextPort, h]

theorem cmdReady_idle : cmdReady e.rst .idle = true := by simp [cmdReady, h]

end

theorem cmdReady_of_ne_idle (rst : Bool) {p : Port} (h : p ≠ .idle) : cmdReady rst p = false := by
  simp [cmdReady, h]

/-- An edge that completes an event leaves the port idle: a reset drops the command, a response ends it. -/
theorem nextPort_of_completedEvent {e : Edge} {p : Port} {ev : Event} (h : completedEvent e p = some ev) :
    nextPort e p = .idle := by
  cases hrst : e.rst with
  | true => exact nextPort_of_rst hrst p
  | false =>
    cases p with
    | idle => rw [completedEvent_idle hrst] at h; cases h
    | busy w => rw [completedEvent_busy hrst] at h; cases h
    | responding w => exact nextPort_responding hrst w

theorem clockEdge_of_none {e : Edge} {s : State} (h : completedEvent e s.port = none) :
    clockEdge e s = .next { s with port := nextPort e s.port } := by
  simp only [clockEdge, h]

theorem clockEdge_of_some {e : Edge} {s : State} {ev : Event} (h : completedEvent e s.port = some ev) :
    clockEdge e s = takeEvent ev { s with port := .idle } := by
  simp only [clockEdge, h, nextPort_of_completedEvent h]

theorem runEdges_cons {e : Edge} {s t : State} (rest : List Edge) (h : clockEdge e s = .next t) :
    runEdges (e :: rest) s = runEdges rest t := by
  simp only [runEdges, h]

/-! ### A run of edges -/

/-- Settles O46: an edge that completes no event moves only the port; one that completes an event takes it as the
transactions do, from and to the idle port. -/
theorem clockedRunIsTheTransactionRun : Obligations.ClockedRunIsTheTransactionRun := by
  intro es
  induction es with
  | nil => exact fun s => ⟨_, rfl, rfl⟩
  | cons e rest ih =>
    intro s
    rw [completedEvents, portAfter]
    cases hev : completedEvent e s.port with
    | none =>
      obtain ⟨u, hu, hrun⟩ := ih { s with port := nextPort e s.port }
      exact ⟨u, hu, (runEdges_cons rest (clockEdge_of_none hev)).trans hrun⟩
    | some ev =>
      obtain ⟨t, ht⟩ := takeEvent_completes ev { s with port := .idle }
      obtain ⟨-, -, hport⟩ := takeEvent_frame ht
      have hidle : t.port = nextPort e s.port := (hport rfl).trans (nextPort_of_completedEvent hev).symm
      obtain ⟨u, hu, hrun⟩ := ih t
      have hback : { t with port := .idle } = t := by rw [← hport rfl]
      rw [hidle] at hu hrun
      rw [hback] at hu
      exact ⟨u, (runEvents_cons _ ht).trans hu, (runEdges_cons rest ((clockEdge_of_some hev).trans ht)).trans hrun⟩

/-- Each edge without reset passes on the word in flight and the word accepted, in order. -/
theorem completedEvent_append_inFlight {e : Edge} (h : e.rst = false) (p : Port) :
    (completedEvent e p).toList ++ (nextPort e p).inFlight.map Event.command =
      (p.inFlight ++ if e.cmdValid && cmdReady e.rst p && !e.rst then [e.cmd] else []).map Event.command := by
  cases p with
  | idle =>
    cases hv : e.cmdValid with
    | false => rw [completedEvent_idle h, nextPort_idle_of_not_valid h hv]; rfl
    | true =>
      rw [completedEvent_idle h, nextPort_idle_of_valid h hv, cmdReady_idle h, h]
      split <;> rfl
  | busy w =>
    rw [completedEvent_busy h, nextPort_busy h, cmdReady_of_ne_idle _ (by simp)]
    split <;> simp [Port.inFlight]
  | responding w =>
    rw [completedEvent_responding h, nextPort_responding h, cmdReady_of_ne_idle _ (by simp)]
    simp [Port.inFlight]

/-- Without reset the completed commands and the one in flight are the word in flight before and the accepted ones. -/
theorem completedEvents_append_inFlight {es : List Edge} (h : ∀ e ∈ es, e.rst = false) (p : Port) :
    completedEvents es p ++ (portAfter es p).inFlight.map Event.command =
      (p.inFlight ++ acceptedWords es p).map Event.command := by
  induction es generalizing p with
  | nil => simp [completedEvents, portAfter, acceptedWords]
  | cons e rest ih =>
    obtain ⟨he, hrest⟩ := List.forall_mem_cons.mp h
    rw [completedEvents, portAfter, acceptedWords, List.append_assoc, ih hrest, List.map_append, ← List.append_assoc,
      completedEvent_append_inFlight he, ← List.map_append, List.append_assoc]

/-- Settles O47: from an idle port, with nothing in flight before. -/
theorem acceptedCommandsCompleteInOrder : Obligations.AcceptedCommandsCompleteInOrder :=
  fun _ h => completedEvents_append_inFlight h .idle

/-! ### The response -/

/-- While the block does not finish, the command stays in flight. -/
theorem runEdges_wait {wait : List Edge} {s : State} {w : Word} (hp : s.port = .busy w) (rest : List Edge)
    (h : ∀ e ∈ wait, e.rst = false ∧ e.finish = false) : runEdges (wait ++ rest) s = runEdges rest s := by
  induction wait with
  | nil => rfl
  | cons e wait ih =>
    obtain ⟨⟨hrst, hfin⟩, hwait⟩ := List.forall_mem_cons.mp h
    have hnone : completedEvent e s.port = none := hp ▸ completedEvent_busy hrst w
    have hstay : nextPort e s.port = s.port := by simp [hp, nextPort_busy hrst, hfin]
    have hedge := clockEdge_of_none hnone
    rw [hstay] at hedge
    rw [List.cons_append, runEdges_cons _ hedge, ih hwait]

/-- Settles O48: the edge that accepts, the wait, the edge that finishes, and the edge at which the response is
sampled. -/
theorem acceptedCommandsRespond : Obligations.AcceptedCommandsRespond := by
  intro wait a f d s hp ha hv hd hwait hf hfin
  have haccept : clockEdge a s = .next { s with port := if a.finish then .responding a.cmd else .busy a.cmd } := by
    rw [clockEdge_of_none (hp ▸ completedEvent_idle ha), hp, nextPort_idle_of_valid ha hv]
  refine ⟨fun hfa => ?_, fun hfa => ?_, ?_⟩
  · rw [runEdges_cons _ haccept, hfa]
    rfl
  · have hfinish : clockEdge f { s with port := .busy a.cmd } = .next { s with port := .responding a.cmd } := by
      rw [clockEdge_of_none (completedEvent_busy hf a.cmd), nextPort_busy hf, hfin]
      rfl
    rw [hfa] at haccept
    rw [List.cons_append, runEdges_cons _ haccept]
    exact (runEdges_wait rfl [f] hwait).trans (runEdges_cons [] hfinish)
  · obtain ⟨t, ht⟩ := runWord_completes a.cmd s
    refine ⟨t, (clockEdge_of_some (completedEvent_responding hd a.cmd)).trans ?_, ht⟩
    rw [← hp]
    exact ht

theorem portOut_of_not_responding {s : State} (h : ∀ w, s.port ≠ .responding w) :
    portOut false s = ⟨cmdReady false s.port, false, none, none⟩ := by
  unfold portOut
  cases hp : s.port with
  | idle => simp
  | busy w => simp
  | responding w => exact absurd hp (h w)

/-- The response on the port is the one response its word is answered with (30_encoding.md R46). -/
theorem portOut_of_responding {s t : State} {w : Word} {r : Response} (hp : s.port = .responding w)
    (ht : runWord w { s with port := .idle } = .next t) (hr : t.responses = s.responses ++ [r]) :
    portOut false s = ⟨false, true, some r.status.code, some r.data⟩ := by
  have hanswer : answerTo w { s with port := .idle } = some r := by simp [answerTo, ht, hr]
  simp [portOut, hp, hanswer, cmdReady]

/-- Settles O49: no response while idle or busy; the response of the word in its response cycle is that of the
transaction the next edge completes. -/
theorem outputsInEachPhase : Obligations.OutputsInEachPhase := by
  intro s
  refine ⟨fun hp => ?_, fun w hp => ?_, fun w hp => ?_⟩
  · rw [portOut_of_not_responding (by simp [hp]), hp]
    rfl
  · rw [portOut_of_not_responding (by simp [hp]), hp]
    rfl
  · obtain ⟨t, r, ht, hr, -⟩ := everyWordGetsExactlyOneResponse w { s with port := .idle }
    refine ⟨r, t, portOut_of_responding hp ht hr, fun e he => ?_, hr, runWord_port ht⟩
    exact (clockEdge_of_some (ev := .command w) (hp ▸ completedEvent_responding he w)).trans ht

/-! ### Reset -/

theorem acceptedWords_of_rst {e : Edge} (h : e.rst = true) (p : Port) : acceptedWords [e] p = [] := by
  simp [acceptedWords, h]

/-- Settles O50: the edge completes a reset, which gives no response and accepts nothing. -/
theorem resetEdgeDropsTheCommandInFlight : Obligations.ResetEdgeDropsTheCommandInFlight := by
  intro e s h
  refine ⟨⟨_, clockEdge_of_some (completedEvent_of_rst h s.port), rfl, rfl, bitAt_nil, rfl, rfl, rfl, rfl, rfl⟩, rfl,
    acceptedWords_of_rst h s.port⟩

/-! ### A command held stable -/

theorem acceptedWords_cons_of_ready {e : Edge} {p : Port} (rest : List Edge) (hv : e.cmdValid = true)
    (h : cmdReady e.rst p = true) : acceptedWords (e :: rest) p = e.cmd :: acceptedWords rest (nextPort e p) := by
  have hrst : (!e.rst) = true := (Bool.and_eq_true_iff.mp h).1
  rw [acceptedWords, hv, h, hrst]
  rfl

theorem acceptedWords_cons_of_not_ready {e : Edge} {p : Port} (rest : List Edge) (h : cmdReady e.rst p = false) :
    acceptedWords (e :: rest) p = acceptedWords rest (nextPort e p) := by
  rw [acceptedWords, h, Bool.and_false, Bool.false_and]
  rfl

/-- A word offered and not accepted is offered at the next edge (70_reset_and_hazards.md R118). -/
theorem offered_again_of_heldStable {e e' : Edge} {rest : List Edge} {p : Port}
    (h : heldStable (e :: e' :: rest) p = true) (hv : e.cmdValid = true) (hready : cmdReady e.rst p = false) :
    (e'.cmdValid = true ∧ e'.cmd = e.cmd) ∧ heldStable (e' :: rest) (nextPort e p) = true := by
  simpa [heldStable, hv, hready] using h

/-- Settles O51: a word is accepted at its edge, or offered again at the next one, if there is one. -/
theorem aHeldCommandIsTheOneAccepted : Obligations.AHeldCommandIsTheOneAccepted := by
  intro e es p hheld hv
  induction es generalizing e p with
  | nil =>
    cases hready : cmdReady e.rst p with
    | true => exact .inr (acceptedWords_cons_of_ready [] hv hready ▸ rfl)
    | false => exact .inl (acceptedWords_cons_of_not_ready [] hready)
  | cons e' rest ih =>
    cases hready : cmdReady e.rst p with
    | true => exact .inr (acceptedWords_cons_of_ready _ hv hready ▸ rfl)
    | false =>
      obtain ⟨⟨hv', hcmd⟩, hrest⟩ := offered_again_of_heldStable hheld hv hready
      rw [acceptedWords_cons_of_not_ready _ hready, ← hcmd]
      exact ih e' (nextPort e p) hrest hv'

end Sys2Proof.Machine
end

section
/-! PROOFS. The driver's duties (spec/70_reset_and_hazards.md R113 to R117) and two copies of the block
(spec/60_exceptions.md R105). -/

namespace Sys2Proof.Machine

/-! ### A driven run -/

@[simp] theorem lastStatus_respond (st : Status) (d : Word) (s : State) : lastStatus (respond st d s) = some st := by
  simp [lastStatus]

@[simp] theorem lastStatus_raiseFault (c : Cause) (s : State) : lastStatus (raiseFault c s) = some c.status :=
  lastStatus_respond c.status 0 _

/-- After a `PUSH` the latch is set exactly if the answer is not `OK` (41_armor_append.md R70). -/
theorem execPush_abort_iff_status {ch : Byte} {s t : State} {st : Status} (h : execPush ch s = .next t)
    (hst : lastStatus t = some st) : t.abort = true ↔ st ≠ .ok := by
  rcases execPush_cases h with ⟨ha, rfl⟩ | ⟨-, -, rfl⟩ | ⟨-, -, -, rfl⟩ | ⟨ha, -, -, rfl⟩
  · cases hst.symm.trans (lastStatus_raiseFault _ _)
    exact iff_of_true ha (by decide)
  · cases hst.symm.trans (lastStatus_raiseFault _ _)
    exact iff_of_true rfl (by decide)
  · cases hst.symm.trans (lastStatus_raiseFault _ _)
    exact iff_of_true rfl (by decide)
  · cases hst.symm.trans (lastStatus_respond _ _ _)
    exact iff_of_false (ne_true_of_eq_false ha) (fun hne => hne rfl)

theorem driverAgrees_sentence_iff (failed : Bool) (s : State) :
    driverAgrees (.sentence failed) s ↔ (s.abort = true ↔ failed = true) := by
  simp [driverAgrees]

/-- The phase is not inside a sentence. -/
def DriverPhase.outside (ph : DriverPhase) : Prop := ∀ failed, ph ≠ .sentence failed

/-- Outside a sentence the phase agrees with a clear latch only. -/
theorem driverAgrees_iff_of_outside {ph : DriverPhase} (h : ph.outside) (s : State) :
    driverAgrees ph s ↔ s.abort = false := by
  simp [driverAgrees, h true]

section
variable {ph ph' : DriverPhase} {st : Status}

theorem outside_of_driverNext_clr (h : driverNext ph .clr st = some ph') : ph'.outside := by
  cases ph <;> cases h <;> exact nofun

theorem outside_of_driverNext_pad {ch : Byte} (h : driverNext ph (.pad ch) st = some ph') : ph'.outside := by
  have hend (p : Prop) [Decidable p] : (if p then DriverPhase.closed else .lost).outside := by split <;> exact nofun
  cases ph with
  | fresh => cases h; exact hend _
  | closed => cases h; exact hend _
  | sentence failed => cases h; exact hend _
  | reading => cases h
  | lost => cases h

/-- Reads come only outside a sentence, and lead to no sentence (70_reset_and_hazards.md R115). -/
theorem outside_of_driverNext_rdu {off : BitCount} {n : FieldWidth} (h : driverNext ph (.rdu off n) st = some ph') :
    ph.outside ∧ ph'.outside := by
  cases ph <;> cases h <;> exact ⟨nofun, nofun⟩

end

/-- A `PUSH` the duties allow begins a sentence or goes on with it, failed from the first answer that is not `OK`. -/
theorem driverAgrees_push {ch : Byte} {ph ph' : DriverPhase} {s t : State} {st : Status} (hs : driverAgrees ph s)
    (h : execPush ch s = .next t) (hst : lastStatus t = some st) (hph : driverNext ph (.push ch) st = some ph') :
    driverAgrees ph' t := by
  have hlatch := execPush_abort_iff_status h hst
  cases ph with
  | fresh => cases hph; rw [driverAgrees_sentence_iff, hlatch, decide_eq_true_iff]
  | closed => cases hph; rw [driverAgrees_sentence_iff, hlatch, decide_eq_true_iff]
  | sentence failed =>
    cases hph
    have hkeep : s.abort = true → t.abort = true := fun ha => (execPush_abort_iff h).mpr (.inr ha)
    rw [driverAgrees_sentence_iff] at hs ⊢
    rw [Bool.or_eq_true, decide_eq_true_iff, ← hlatch, ← hs]
    exact (or_iff_right_of_imp hkeep).symm
  | reading => cases hph
  | lost => cases hph

/-- A command the duties allow keeps the phase in agreement with the latch. -/
theorem driverAgrees_step {i : Instr} {ph ph' : DriverPhase} {s t : State} {st : Status} (hs : driverAgrees ph s)
    (h : exec i s = .next t) (hst : lastStatus t = some st) (hph : driverNext ph i st = some ph') :
    driverAgrees ph' t := by
  have hread (hout : ph.outside ∧ ph'.outside) (habort : t.abort = s.abort) : driverAgrees ph' t := by
    obtain ⟨hbefore, hafter⟩ := hout
    rw [driverAgrees_iff_of_outside hbefore] at hs
    rw [driverAgrees_iff_of_outside hafter, habort, hs]
  cases i with
  | nop => cases h; cases hph; exact hs
  | stat => cases h; cases hph; exact hs
  | clr => cases h; exact (driverAgrees_iff_of_outside (outside_of_driverNext_clr hph) _).mpr rfl
  | push ch => exact driverAgrees_push hs h hst hph
  | pad ch => exact (driverAgrees_iff_of_outside (outside_of_driverNext_pad hph) t).mpr (execPad_abort h)
  | rdu off n => exact hread (outside_of_driverNext_rdu hph) (execRdu_abort h)
  | rds off n => exact hread (outside_of_driverNext_rdu (st := st) (off := off) (n := n) hph) (execRds_abort h)

/-- What a run that keeps the duties does first. -/
theorem runDriver_cons_cases {i : Instr} {rest : List Instr} {ph : DriverPhase} {s : State}
    {x : DriverPhase × State} (h : runDriver (i :: rest) (ph, s) = some x) :
    ∃ t st ph', exec i s = .next t ∧ lastStatus t = some st ∧ driverNext ph i st = some ph' ∧
      runDriver rest (ph', t) = some x := by
  obtain ⟨t, ht⟩ := exec_completes i s
  rw [runDriver, ht] at h
  cases hst : lastStatus t with
  | none => simp [hst] at h
  | some st =>
    cases hph : driverNext ph i st with
    | none => simp [hst, hph] at h
    | some ph' => exact ⟨t, st, ph', ht, hst, hph, by simpa [hst, hph] using h⟩

theorem runDriver_keeps_driverAgrees {is : List Instr} {ph ph' : DriverPhase} {s t : State} (hs : driverAgrees ph s)
    (h : runDriver is (ph, s) = some (ph', t)) : driverAgrees ph' t := by
  induction is generalizing ph s with
  | nil => cases h; exact hs
  | cons i rest ih =>
    obtain ⟨u, st, ph₁, hu, hst, hph, hrest⟩ := runDriver_cons_cases h
    exact ih (driverAgrees_step hs hu hst hph) hrest

/-- Settles O52: at the start no sentence has begun and the latch is clear, which agree. -/
theorem drivenRunsBeginNoSentenceAborted : Obligations.DrivenRunsBeginNoSentenceAborted :=
  fun _ s _ _ ha h => runDriver_keeps_driverAgrees ((driverAgrees_iff_of_outside (ph := .fresh) nofun s).mpr ha) h

/-! ### Two copies -/

theorem runChannels_cons {c : Channel} {e : Event} {p : Instances} {t : State} (rest : List (Channel × Event))
    (h : takeEvent e (p.at c) = .next t) : runChannels ((c, e) :: rest) p = runChannels rest (p.put c t) := by
  simp only [runChannels, h]

theorem at_put_same (p : Instances) (c : Channel) (s : State) : (p.put c s).at c = s := by cases c <;> rfl

theorem at_put_of_ne (p : Instances) {c d : Channel} (s : State) (h : d ≠ c) : (p.put c s).at d = p.at d := by
  cases c with
  | a =>
    cases d with
    | a => exact absurd rfl h
    | b => rfl
  | b =>
    cases d with
    | a => rfl
    | b => exact absurd rfl h

theorem eventsOf_cons_same (c : Channel) (e : Event) (es : List (Channel × Event)) :
    eventsOf c ((c, e) :: es) = e :: eventsOf c es := by simp [eventsOf]

theorem eventsOf_cons_of_ne {c d : Channel} (e : Event) (es : List (Channel × Event)) (h : d ≠ c) :
    eventsOf d ((c, e) :: es) = eventsOf d es := by simp [eventsOf, h.symm]

/-- Settles O53: an event moves the state of its own channel, and that of the other channel not at all. -/
theorem instancesAreIndependent : Obligations.InstancesAreIndependent := by
  intro es
  induction es with
  | nil => exact fun p => ⟨p, rfl, fun _ => rfl⟩
  | cons x rest ih =>
    intro p
    obtain ⟨c, e⟩ := x
    obtain ⟨t, ht⟩ := takeEvent_completes e (p.at c)
    obtain ⟨q, hq, hall⟩ := ih (p.put c t)
    refine ⟨q, (runChannels_cons rest ht).trans hq, fun d => ?_⟩
    by_cases hd : d = c
    · subst hd
      rw [eventsOf_cons_same, runEvents_cons _ ht, ← hall, at_put_same]
    · rw [eventsOf_cons_of_ne e rest hd, ← hall, at_put_of_ne p t hd]

end Sys2Proof.Machine
end
